-- ==== Sys2Proof/Word.lean ====
section
/-!
DEFINITION. The word type of the model: the byte of the program space (spec/20_memory.md R40).
Register and memory cells are mathematical integers (spec/00_scope.md R6), so they need no word type.
-/

namespace Sys2Proof

/-- One byte `P[k]` of the program, a natural number 0..255 (00_scope.md R9). -/
abbrev Byte := BitVec 8

end Sys2Proof
end

