-- ==== Sys2Proof/Config.lean ====
section
/-!
DEFINITION. The implementation parameters of spec/00_scope.md R6 (and 93_implementation_defined.md U5-U7). They are
plain data, so that one model covers every value of them and still runs. The model has no free value: 93 says that no
behaviour of the four instructions is left undefined.
-/

namespace Sys2Proof

/-- The document's enumeration of operations (00_scope.md R2): the value field A stands for. -/
inductive Opcode where
  | loadConst | loadMem | storeMem | sqrt
  deriving DecidableEq, Repr

/-- The parameter OPCODE_MAP (93 U7): the opcode byte of each operation. -/
structure OpcodeMap where
  loadConst : Byte
  loadMem   : Byte
  storeMem  : Byte
  sqrt      : Byte
  deriving DecidableEq, Repr

/-- The parameters a model takes (00_scope.md R6). -/
structure Config where
  /-- REG_COUNT: the number of register cells. -/
  regCount : Nat
  /-- MEM_SIZE: the number of data-memory cells. -/
  memSize  : Nat
  /-- CELL_BITS (92_eei_decisions.md D2): `none` is the unbounded cell of R6, `some n` a realisation with n-bit cells. -/
  cellBits : Option Nat
  /-- OPCODE_MAP. -/
  opcodes  : OpcodeMap
  deriving DecidableEq, Repr

end Sys2Proof
end

