-- ==== Sys2Proof/Syntax.lean ====
section
/-!
DEFINITION. The instructions: one constructor per row of spec/opcode_table.json. Operands are the unsigned fields B and C,
natural numbers (spec/00_scope.md R8, 30_encoding.md R61), in that order; WellFormed.lean bounds them by their widths.
-/

namespace Sys2Proof

/-- An instruction with its fields B and C unpacked (30_encoding.md R63-R66). -/
inductive Instr where
  /-- LOAD_CONST: B is the constant, C the destination register (R63). -/
  | loadConst (b c : Nat)
  /-- LOAD_MEM: B is the source memory address, C the destination register (R64). -/
  | loadMem (b c : Nat)
  /-- STORE_MEM: B is the source register, C the destination memory address (R65). -/
  | storeMem (b c : Nat)
  /-- SQRT: B is the destination register, C the source register (R66). -/
  | sqrt (b c : Nat)
  deriving DecidableEq, Repr

end Sys2Proof
end

