-- ==== Sys2Proof/WellFormed.lean ====
section
/-!
DEFINITION. When an instruction's fields fit their declared widths (spec/30_encoding.md R63-R66), and when the parameters
are ones the spec admits (00_scope.md R6, 92_eei_decisions.md D2).
-/

namespace Sys2Proof

/-- Every field within its declared width, which is what decoding yields (30_encoding.md R61, R76). -/
def Instr.wf : Instr → Bool
  | .loadConst b c => decide (b < 2 ^ 27) && decide (c < 2 ^ 7)
  | .loadMem b c   => decide (b < 2 ^ 26) && decide (c < 2 ^ 7)
  | .storeMem b c  => decide (b < 2 ^ 7) && decide (c < 2 ^ 26)
  | .sqrt b c      => decide (b < 2 ^ 7) && decide (c < 2 ^ 7)

/-- No two operations share an opcode byte: dispatch is a function of the byte (40_decode_dispatch.md R96). -/
def OpcodeMap.distinct (m : OpcodeMap) : Bool :=
  decide ([m.loadConst, m.loadMem, m.storeMem, m.sqrt].Nodup)

/-- The parameters the spec admits: REG_COUNT at least 1, any MEM_SIZE (00_scope.md R6), cells of at least 28 bits if
finite (92_eei_decisions.md D2), distinct opcode bytes. -/
def Config.wf (c : Config) : Bool :=
  decide (1 ≤ c.regCount) && (match c.cellBits with | none => true | some n => decide (28 ≤ n)) && c.opcodes.distinct

end Sys2Proof
end

