-- ==== Sys2Proof/Decode.lean ====
section
/-!
DEFINITION. The instruction codec of spec/30_encoding.md: bit fields and little-endian integers, the four layouts, the opcode
map, the encoder and the decoder over byte strings.
-/

namespace Sys2Proof

/-! ### Bit fields and byte order -/

/-- `field(I, o, w)`: right shift, then mask to the width (30_encoding.md R61). -/
def bitField (n lo width : Nat) : Nat := (n >>> lo) % 2 ^ width

/-- The unsigned little-endian integer of a byte string, its first byte least significant (30_encoding.md R60). -/
def leNat : List Byte → Nat
  | [] => 0
  | b :: bs => b.toNat + 2 ^ 8 * leNat bs

/-- The `k` low bytes of an integer, least significant first (30_encoding.md R70). -/
def leBytes : Nat → Nat → List Byte
  | 0, _ => []
  | k + 1, n => BitVec.ofNat 8 n :: leBytes k (n / 2 ^ 8)

/-! ### Layouts and the opcode map -/

/-- One row of the document's layout table (30_encoding.md section 2): the width in bytes, and offset and width in bits of
fields B and C. Field A is bits 0 to 7 in every layout (R67). -/
structure Layout where
  bytes  : Nat
  bOff   : Nat
  bWidth : Nat
  cOff   : Nat
  cWidth : Nat
  deriving DecidableEq, Repr

/-- The formats FMT_LC, FMT_LM, FMT_SM and FMT_SQ (30_encoding.md R63-R66). -/
def Opcode.layout : Opcode → Layout
  | .loadConst => ⟨6, 8, 27, 35, 7⟩
  | .loadMem   => ⟨6, 8, 26, 34, 7⟩
  | .storeMem  => ⟨6, 8, 7, 15, 26⟩
  | .sqrt      => ⟨3, 8, 7, 15, 7⟩

/-- The instruction width in bytes, a function of the opcode alone (30_encoding.md R62). -/
def Opcode.width (o : Opcode) : Nat := o.layout.bytes

/-- DEDUCED. The default OPCODE_MAP (30_encoding.md R68, derived there by decision D1; log entry 7). -/
def OpcodeMap.default : OpcodeMap :=
  { loadConst := 0x78, loadMem := 0x81, storeMem := 0x7B, sqrt := 0x35 }

/-- The opcode byte of an operation. -/
def OpcodeMap.byte (m : OpcodeMap) : Opcode → Byte
  | .loadConst => m.loadConst
  | .loadMem   => m.loadMem
  | .storeMem  => m.storeMem
  | .sqrt      => m.sqrt

/-- The operation an opcode byte selects, `none` for an illegal byte (30_encoding.md R75, 40_decode_dispatch.md R96). -/
def OpcodeMap.opcode? (m : OpcodeMap) (b : Byte) : Option Opcode :=
  if b = m.loadConst then some .loadConst
  else if b = m.loadMem then some .loadMem
  else if b = m.storeMem then some .storeMem
  else if b = m.sqrt then some .sqrt
  else none

/-- The operation of an instruction. -/
def Instr.opcode : Instr → Opcode
  | .loadConst _ _ => .loadConst
  | .loadMem _ _   => .loadMem
  | .storeMem _ _  => .storeMem
  | .sqrt _ _      => .sqrt

/-- Field B of an instruction. -/
def Instr.fieldB : Instr → Nat
  | .loadConst b _ => b
  | .loadMem b _   => b
  | .storeMem b _  => b
  | .sqrt b _      => b

/-- Field C of an instruction. -/
def Instr.fieldC : Instr → Nat
  | .loadConst _ c => c
  | .loadMem _ c   => c
  | .storeMem _ c  => c
  | .sqrt _ c      => c

/-- The width of an instruction in bytes. -/
def Instr.width (i : Instr) : Nat := i.opcode.width

/-- The instruction with an operation and fields B and C. -/
def Opcode.instr : Opcode → Nat → Nat → Instr
  | .loadConst, b, c => .loadConst b c
  | .loadMem, b, c   => .loadMem b c
  | .storeMem, b, c  => .storeMem b c
  | .sqrt, b, c      => .sqrt b c

/-! ### Decoding -/

/-- `decode_L`: the fields (A, B, C) of an instruction's bytes (30_encoding.md R71). Bits outside the fields are not read
(R69). DESIGN CHOICE: on fewer than W bytes, where R71 and 91_not_in_source.md N13 leave the fields undefined, this function
is total and reads missing bytes as 0; `decode` rejects such a string first, so no step and no instruction reaches that case
(log entry 19). -/
def decodeFields (o : Opcode) (bytes : List Byte) : Nat × Nat × Nat :=
  (bitField (leNat bytes) 0 8,
   bitField (leNat bytes) o.layout.bOff o.layout.bWidth,
   bitField (leNat bytes) o.layout.cOff o.layout.cWidth)

/-- What the decoder answers on a byte string. -/
inductive Decoded where
  /-- An instruction, and the bytes after it. -/
  | instr (i : Instr) (rest : List Byte)
  /-- There is no byte to decode: the end of the program (40_decode_dispatch.md R92). -/
  | endOfProgram
  /-- The first byte is no opcode (40_decode_dispatch.md R93). -/
  | unknownOpcode (op : Byte)
  /-- The opcode is legal but its instruction is cut off (40_decode_dispatch.md R94). -/
  | truncated (op : Byte) (available : Nat)
  deriving DecidableEq, Repr

/-- Decode the instruction at the start of a byte string, total on every string: opcode first, then the length, then the
fields (40_decode_dispatch.md R93-R95). -/
def decode (m : OpcodeMap) : List Byte → Decoded
  | [] => .endOfProgram
  | op :: rest =>
    match m.opcode? op with
    | none => .unknownOpcode op
    | some o =>
      if (op :: rest).length < o.width then .truncated op (op :: rest).length
      else
        .instr (o.instr (decodeFields o ((op :: rest).take o.width)).2.1 (decodeFields o ((op :: rest).take o.width)).2.2)
          ((op :: rest).drop o.width)

/-- Decode a whole program, each instruction starting where the last one ended (30_encoding.md R77); `none` if an instruction
of it is rejected. The first argument is fuel. -/
def disassembleFuel (m : OpcodeMap) : Nat → List Byte → Option (List Instr)
  | 0, bytes => if bytes = [] then some [] else none
  | k + 1, bytes =>
    match decode m bytes with
    | .instr i rest => (disassembleFuel m k rest).map (fun is => i :: is)
    | .endOfProgram => some []
    | .unknownOpcode _ => none
    | .truncated _ _ => none

/-- Decode a whole program; every instruction takes at least one byte, so its length is fuel enough. -/
def disassemble (m : OpcodeMap) (bytes : List Byte) : Option (List Instr) :=
  disassembleFuel m bytes.length bytes

/-- The instruction the decoder reads from an instruction whose bits are `w`, bit 0 the least significant bit of the first
byte, every bit above `nbits` zero (the longest instruction has 6 bytes). -/
def decodeTableWord (nbits w : Nat) : Option Instr :=
  match decode OpcodeMap.default (leBytes 6 (w % 2 ^ nbits)) with
  | .instr i _ => some i
  | .endOfProgram => none
  | .unknownOpcode _ => none
  | .truncated _ _ => none

/-! ### Encoding -/

/-- The instruction integer of `encode_L`: each field reduced mod 2^width, shifted to its offset, and joined
(30_encoding.md R70). The fields are any integers. -/
def packFields (l : Layout) (a b c : Int) : Nat :=
  (a % 2 ^ 8).toNat + 2 ^ l.bOff * (b % 2 ^ l.bWidth).toNat + 2 ^ l.cOff * (c % 2 ^ l.cWidth).toNat

/-- `encode_L`: the bytes of an instruction with fields (A, B, C) given as integers; oversized values wrap silently
(30_encoding.md R70). -/
def encodeFields (o : Opcode) (a b c : Int) : List Byte :=
  leBytes o.width (packFields o.layout a b c)

/-- The bytes of an instruction. -/
def encode (m : OpcodeMap) (i : Instr) : List Byte :=
  encodeFields i.opcode (m.byte i.opcode).toNat i.fieldB i.fieldC

/-- The program image of a sequence of instructions: their encodings, concatenated (30_encoding.md R77, R83). -/
def encodeAll (m : OpcodeMap) : List Instr → List Byte
  | [] => []
  | i :: is => encode m i ++ encodeAll m is

end Sys2Proof
end

