-- ==== Sys2Proof/Machine/State.lean ====
section
/-!
DEFINITION. The state of the core (spec/10_state.md R20-R35), the reasons a step stops, and the state at power-on
(70_reset_and_hazards.md R170).
-/

namespace Sys2Proof.Machine

/-- Which array an index names (60_exceptions.md R141). -/
inductive Space where
  | register | memory
  deriving DecidableEq, Repr

/-- `Fault(code, info)` of 60_exceptions.md R141. The step that raises one answers a next state whose latch holds it (R140); a
step of a core whose latch holds one answers `.fault` with it (40_decode_dispatch.md R91). Each is the spec's own behaviour,
so safe. -/
inductive Fault where
  /-- Code 1, raised by the fetch when the byte at pc is no opcode (R142). Safe: the spec's fault. -/
  | unknownOpcode (pc : Nat) (op : Byte)
  /-- Code 2, raised by the fetch when the program ends inside the instruction (R143). Safe: the spec's fault. -/
  | truncatedInstruction (pc : Nat) (op : Byte) (available : Nat)
  /-- Code 3, raised by all four instructions for an index outside its array (R144, R145). Safe: the spec's fault. -/
  | indexOutOfRange (pc : Nat) (op : Byte) (space : Space) (index : Nat)
  /-- Code 4, raised by SQRT for a negative operand (R146). Safe: the spec's fault. -/
  | invalidOperand (pc : Nat) (op : Byte) (index : Nat) (value : Int)
  deriving DecidableEq, Repr

/-- Why a step has no meaning. -/
inductive Refusal where
  /-- An instruction without a meaning, refused by exec's arm for it. No arm does so: every instruction is modelled. Safe. -/
  | notModelled (mnemonic : String)
  deriving DecidableEq, Repr

/-- What a step answers. -/
abbrev Result (σ : Type) := Host.Outcome σ Fault Refusal

/-- An array of integer cells, as (index, value) pairs in canonical form: indices rising, no entry of value 0. An unlisted cell
holds 0, the power-on value of every cell (10_state.md R24, R32; log entry 5). -/
abbrev Cells := List (Nat × Int)

/-- The architectural state (10_state.md section 1). -/
structure State where
  /-- The implementation parameters, which nothing changes (00_scope.md R6; log entry 1). -/
  config  : Config
  /-- The register file x (R20). -/
  regs    : Cells
  /-- The data memory M (R32). -/
  mem     : Cells
  /-- The byte offset of the next instruction (R25). -/
  pc      : Nat
  /-- The program buffer P; its length is PLEN (R33). -/
  program : List Byte
  /-- The fault latch F (R34). -/
  latch   : Option Fault
  deriving DecidableEq, Repr

/-- The default parameters of 00_scope.md R6. -/
def defaultConfig : Config :=
  { regCount := 256, memSize := 2048, cellBits := none, opcodes := OpcodeMap.default }

/-- The power-on state, before any `load` (70_reset_and_hazards.md R170). -/
def State.reset : State :=
  { config := defaultConfig, regs := [], mem := [], pc := 0, program := [], latch := none }

end Sys2Proof.Machine
end

