-- ==== Sys2Proof/Machine/Ops.lean ====
section
/-!
DEFINITION. The named operations over the cell arrays, the registers, the memory and the program counter; raising a fault, and
`load`, the only way out of a faulted state.
-/

namespace Sys2Proof.Machine

/-! ### Cell arrays -/

/-- The integer a cell holds. -/
def Cells.read : Cells → Nat → Int
  | [], _ => 0
  | (k, v) :: rest, a => if a = k then v else Cells.read rest a

/-- Put an integer into a cell, keeping the canonical form: writing 0 removes the entry. -/
def Cells.write : Cells → Nat → Int → Cells
  | [], a, v => if v = 0 then [] else [(a, v)]
  | (k, w) :: rest, a, v =>
    if a < k then (if v = 0 then (k, w) :: rest else (a, v) :: (k, w) :: rest)
    else if a = k then (if v = 0 then rest else (a, v) :: rest)
    else (k, w) :: Cells.write rest a v

/-- The canonical form with every index in `lo..hi-1`: indices strictly rising, no entry of value 0. -/
def Cells.wfBetween (lo hi : Nat) : Cells → Bool
  | [] => true
  | (k, v) :: rest => decide (lo ≤ k) && decide (k < hi) && decide (v ≠ 0) && Cells.wfBetween (k + 1) hi rest

/-- The canonical form of the register file of `size` cells (10_state.md R20). -/
def RegFile.wf (size : Nat) (x : Cells) : Bool := Cells.wfBetween 0 size x

/-- The canonical form of the data memory of `size` cells (10_state.md R32). -/
def Memory.wf (size : Nat) (m : Cells) : Bool := Cells.wfBetween 0 size m

/-- Whether an integer fits a cell: any does by default, and a finite realisation holds signed integers of CELL_BITS bits
(92_eei_decisions.md D2; log entry 9). -/
def fits (c : Config) (v : Int) : Bool :=
  match c.cellBits with
  | none => true
  | some n => decide (-2 ^ (n - 1) ≤ v) && decide (v < 2 ^ (n - 1))

/-! ### Registers, memory, program counter -/

/-- PLEN, the length of the loaded program (10_state.md R33). -/
def State.plen (s : State) : Nat := s.program.length

/-- `x[i]`. -/
def State.readReg (s : State) (i : Nat) : Int := Cells.read s.regs i

/-- `x[i] <- v`. -/
def State.writeReg (s : State) (i : Nat) (v : Int) : State := { s with regs := Cells.write s.regs i v }

/-- `MemRead(a, 1)`. -/
def State.readMem (s : State) (a : Nat) : Int := Cells.read s.mem a

/-- `MemWrite(a, 1, v)`. -/
def State.writeMem (s : State) (a : Nat) (v : Int) : State := { s with mem := Cells.write s.mem a v }

/-- `pc <- pc + w` (40_decode_dispatch.md R97). -/
def State.advance (s : State) (w : Nat) : State := { s with pc := s.pc + w }

/-- The opcode byte that the faults of an operation record. -/
def State.opByte (s : State) (o : Opcode) : Byte := s.config.opcodes.byte o

/-! ### Faults and the way out of them -/

/-- The fault codes of 60_exceptions.md R141. -/
def Fault.code : Fault → Nat
  | .unknownOpcode _ _ => 1
  | .truncatedInstruction _ _ _ => 2
  | .indexOutOfRange _ _ _ _ => 3
  | .invalidOperand _ _ _ _ => 4

/-- The pc a fault records (60_exceptions.md R141). -/
def Fault.pc : Fault → Nat
  | .unknownOpcode pc _ => pc
  | .truncatedInstruction pc _ _ => pc
  | .indexOutOfRange pc _ _ _ => pc
  | .invalidOperand pc _ _ _ => pc

/-- The state after a fault: the state before the step, plus the latch (60_exceptions.md R140). -/
def State.latched (s : State) (f : Fault) : State := { s with latch := some f }

/-- `raise Fault(code, info)`, shared by every raiser: nothing is saved and control goes nowhere (60_exceptions.md R140,
R148). The fault is delivered as a next state that holds it in the latch (log entry 2). -/
def raise (f : Fault) (s : State) : Result State := .next (s.latched f)

/-- `load(program)`: replaces the program, sets pc to 0, clears the latch, keeps every cell (40_decode_dispatch.md R103,
70_reset_and_hazards.md R171). It is the only way out of a faulted state (60_exceptions.md R149). -/
def State.load (s : State) (p : List Byte) : State := { s with program := p, pc := 0, latch := none }

end Sys2Proof.Machine
end

