-- ==== Sys2Proof/Machine/Operands.lean ====
section
/-!
DEFINITION. The operand checks of the four instructions (spec/60_exceptions.md R144-R147) and the commit of an instruction that
passes them (40_decode_dispatch.md R97). Every operand form is absolute: a register index, a memory address or a constant.
-/

namespace Sys2Proof.Machine

/-- A register index must name one of the REG_COUNT cells (60_exceptions.md R144). -/
def regCheck (o : Opcode) (i : Nat) (s : State) : Option Fault :=
  if i < s.config.regCount then none else some (.indexOutOfRange s.pc (s.opByte o) .register i)

/-- A memory address must name one of the MEM_SIZE cells (60_exceptions.md R145). -/
def memCheck (o : Opcode) (a : Nat) (s : State) : Option Fault :=
  if a < s.config.memSize then none else some (.indexOutOfRange s.pc (s.opByte o) .memory a)

/-- The operand in register `i` must not be negative (60_exceptions.md R146). -/
def signCheck (o : Opcode) (i : Nat) (s : State) : Option Fault :=
  if 0 ≤ s.readReg i then none else some (.invalidOperand s.pc (s.opByte o) i (s.readReg i))

/-- The first check that fails decides the fault (60_exceptions.md R147). -/
def firstFault : List (Option Fault) → Option Fault
  | [] => none
  | some f :: _ => some f
  | none :: rest => firstFault rest

/-- Execute and commit (40_decode_dispatch.md R97): raise the first fault of the checks made on `s`, or else go on to `t`. -/
def commit (checks : List (Option Fault)) (s t : State) : Result State :=
  match firstFault checks with
  | some f => raise f s
  | none => .next t

end Sys2Proof.Machine
end

