-- ==== Sys2Proof/Machine/Alu.lean ====
section
/-!
DEFINITION. The ALU: the integer square root and SQRT (spec/42_alu_sqrt.md R130, R131).
-/

namespace Sys2Proof.Machine

/-- One base-4 digit of the square root: `r + 1` if its square still fits below `v`, else `r`. -/
def isqrtDigit (v r : Nat) : Nat := if (r + 1) * (r + 1) ≤ v then r + 1 else r

/-- The integer square root of `v` below `4 ^ fuel`, one digit of two bits at a time. -/
def isqrtFuel : Nat → Nat → Nat
  | 0, _ => 0
  | fuel + 1, v => isqrtDigit v (2 * isqrtFuel fuel (v / 4))

/-- `isqrt(v)`: the greatest integer whose square is at most `v`, exact at every magnitude (R130; log entry 8). -/
def isqrt (v : Nat) : Nat := isqrtFuel (v.log2 / 2 + 1) v

/-- SQRT: `x[B] <- isqrt(x[C])`; the checks are the source index, the sign of the operand, the destination index (R131).
Of a negative operand `toNat` is 0, but the sign check raises its fault then and the root is discarded (log entry 20). -/
def execSqrt (b c : Nat) (s : State) : Result State :=
  commit [regCheck .sqrt c s, signCheck .sqrt c s, regCheck .sqrt b s] s
    ((s.writeReg b (isqrt (s.readReg c).toNat)).advance 3)

end Sys2Proof.Machine
end

