-- ==== Sys2Proof/Machine/DataMovement.lean ====
section
/-!
DEFINITION. LOAD_CONST, LOAD_MEM and STORE_MEM (spec/41_data_movement.md R110-R112). Each copies one integer exactly and
advances pc by 6.
-/

namespace Sys2Proof.Machine

/-- LOAD_CONST: `x[C] <- B` (R110). -/
def execLoadConst (b c : Nat) (s : State) : Result State :=
  commit [regCheck .loadConst c s] s ((s.writeReg c b).advance 6)

/-- LOAD_MEM: `x[C] <- MemRead(B, 1)`, the memory check before the register check (R111). -/
def execLoadMem (b c : Nat) (s : State) : Result State :=
  commit [memCheck .loadMem b s, regCheck .loadMem c s] s ((s.writeReg c (s.readMem b)).advance 6)

/-- STORE_MEM: `MemWrite(C, 1, x[B])`, the register check before the memory check (R112). -/
def execStoreMem (b c : Nat) (s : State) : Result State :=
  commit [regCheck .storeMem b s, memCheck .storeMem c s] s ((s.writeMem c (s.readReg b)).advance 6)

end Sys2Proof.Machine
end

