-- ==== Sys2Proof/Machine/Dispatch.lean ====
section
/-!
DEFINITION. The dispatch of spec/40_decode_dispatch.md R96: one arm per instruction, one meaning per arm.
-/

namespace Sys2Proof.Machine

/-- Run one instruction at the program counter: its operation rule, then the advance of pc (R97, R98). -/
def exec (i : Instr) (s : State) : Host.Outcome State Fault Refusal :=
  match i with
  | .loadConst b c => Sys2Proof.Machine.execLoadConst b c s
  | .loadMem b c => Sys2Proof.Machine.execLoadMem b c s
  | .storeMem b c => Sys2Proof.Machine.execStoreMem b c s
  | .sqrt b c => Sys2Proof.Machine.execSqrt b c s

end Sys2Proof.Machine
end

