-- ==== Sys2Proof/Machine/Fetch.lean ====
section
/-!
DEFINITION. The first half of a step (spec/40_decode_dispatch.md R91-R95): the latch, the halt check, the opcode, the length
and the unpacking, in the order of 60_exceptions.md R147.
-/

namespace Sys2Proof.Machine

/-- What a step finds at the program counter. -/
inductive Fetched where
  /-- The latch holds a fault (R91). -/
  | latched (f : Fault)
  /-- `pc ≥ PLEN` (R92). -/
  | halted
  /-- The fetch raises a fault (R93, R94). -/
  | raises (f : Fault)
  /-- An instruction lying wholly inside the program (R95). -/
  | instr (i : Instr)
  deriving DecidableEq, Repr

/-- The bytes of the program from pc on; none when `pc ≥ PLEN`. -/
def State.fetchBytes (s : State) : List Byte := s.program.drop s.pc

/-- What the decoder makes of the bytes at pc when no fault is latched (R92-R95). -/
def classify (pc : Nat) : Decoded → Fetched
  | .endOfProgram => .halted
  | .unknownOpcode op => .raises (.unknownOpcode pc op)
  | .truncated op available => .raises (.truncatedInstruction pc op available)
  | .instr i _ => .instr i

/-- The fetch of one step. -/
def fetch (s : State) : Fetched :=
  match s.latch with
  | some f => .latched f
  | none => classify s.pc (decode s.config.opcodes s.fetchBytes)

/-- A byte string put into a program at an offset: the bytes before it stay, bytes missing before it become 0, and the bytes
after it stay. -/
def placeBytes (p : List Byte) (offset : Nat) (bytes : List Byte) : List Byte :=
  (p ++ List.replicate (offset - p.length) 0).take offset ++ bytes ++ p.drop (offset + bytes.length)

/-- The core with a table word placed at its program counter, 6 bytes with every bit above `nbits` zero, and with no fault
latched, as after a `load` (log entry 4). -/
def State.placeWord (s : State) (nbits w : Nat) : State :=
  { s with program := placeBytes s.program s.pc (leBytes 6 (w % 2 ^ nbits)), latch := none }

end Sys2Proof.Machine
end

