-- ==== Sys2Proof/Machine/Step.lean ====
section
/-!
DEFINITION. One step of the core (spec/40_decode_dispatch.md R98).
-/

namespace Sys2Proof.Machine

/-- One step: a latched fault is returned and nothing changes (R91); a halted core stays as it is (R92); a fetch fault is
raised (R93, R94); else the instruction at pc runs (R95-R97). -/
def step (s : State) : Host.Outcome State Fault Refusal :=
  match fetch s with
  | .latched f => .fault f
  | .halted => .next s
  | .raises f => raise f s
  | .instr i => exec i s

/-- The state with the instruction of a table word stored where the next step fetches it. -/
def State.withFetchWord (s : State) (nbits w : Nat) : State := s.placeWord nbits w

end Sys2Proof.Machine
end

