-- ==== Sys2Proof/Machine/Assembler.lean ====
section
/-!
DEFINITION. The assembler's text forms (spec/30_encoding.md R79-R83), an external collaborator of the core: no rule of the core
depends on it. Text is a list of characters. Input outside the given forms is refused (93_implementation_defined.md U11; log
entry 13).
-/

namespace Sys2Proof.Machine

/-- One line of assembly, its operands as the integers written (R81). -/
inductive AsmLine where
  | loadConst (literal : Int) (reg : Nat)
  | loadMem (addr reg : Nat)
  | storeMem (reg addr : Nat)
  | sqrt (out inp : Nat)
  deriving DecidableEq, Repr

/-- The bytes of a line: each operand goes to its field and is masked there (R70, R81). -/
def assembleLine (m : OpcodeMap) : AsmLine → List Byte
  | .loadConst literal reg => encodeFields .loadConst m.loadConst.toNat literal reg
  | .loadMem addr reg => encodeFields .loadMem m.loadMem.toNat addr reg
  | .storeMem reg addr => encodeFields .storeMem m.storeMem.toNat reg addr
  | .sqrt out inp => encodeFields .sqrt m.sqrt.toNat out inp

/-- What the assembler answers. -/
inductive AsmResult (α : Type) where
  | ok (a : α)
  /-- An unrecognized mnemonic (R82). -/
  | unknownInstruction
  /-- A line outside the forms the spec gives (U11): refused. -/
  | outsideForms
  deriving DecidableEq, Repr

/-- A decimal digit's value. -/
def digitValue (c : Char) : Option Nat :=
  if '0'.toNat ≤ c.toNat ∧ c.toNat ≤ '9'.toNat then some (c.toNat - '0'.toNat) else none

/-- The value of a run of decimal digits, most significant first, after the digits read so far. -/
def parseDigits : Nat → List Char → Option Nat
  | acc, [] => some acc
  | acc, c :: cs =>
    match digitValue c with
    | some d => parseDigits (10 * acc + d) cs
    | none => none

/-- A decimal number of at least one digit. -/
def parseNat : List Char → Option Nat
  | [] => none
  | c :: cs => parseDigits 0 (c :: cs)

/-- A decimal integer, with a minus sign for a negative one (R81's example `LOAD_CONST -1, r5`). -/
def parseInt : List Char → Option Int
  | '-' :: cs => (parseNat cs).map (fun n => -(n : Int))
  | cs => (parseNat cs).map (fun n => (n : Int))

/-- A register token: `r` followed by a decimal index (R80). -/
def parseReg : List Char → Option Nat
  | 'r' :: cs => parseNat cs
  | _ => none

/-- A token without its trailing commas (R80). -/
def stripCommas (t : List Char) : List Char := (t.reverse.dropWhile (fun c => c = ',')).reverse

/-- Cut a text at the characters `sep` holds of; the second argument is the piece being read, reversed. -/
def splitOn (sep : Char → Bool) : List Char → List Char → List (List Char)
  | [], piece => [piece.reverse]
  | c :: cs, piece => if sep c then piece.reverse :: splitOn sep cs [] else splitOn sep cs (c :: piece)

/-- The lines of a text (R79). -/
def asmLines (text : List Char) : List (List Char) := splitOn (fun c => c = '\n') text []

/-- The whitespace-delimited tokens of a line (R79). -/
def asmTokens (line : List Char) : List (List Char) :=
  (splitOn (fun c => c.isWhitespace) line []).filter (fun t => t ≠ [])

/-- Two operands put into a line, or a refusal when one of them is not of its form. -/
def bothOperands {α β : Type} (mk : α → β → AsmLine) : Option α → Option β → AsmResult AsmLine
  | some a, some b => .ok (mk a b)
  | some _, none => .outsideForms
  | none, _ => .outsideForms

/-- The line that two operand tokens of a mnemonic spell (R80, R81); the mnemonic is looked at first (R82). -/
def parseOperands (mnemonic : List Char) : List (List Char) → AsmResult AsmLine
  | operands =>
    if mnemonic = "LOAD_CONST".toList then
      match operands with
      | [x, y] => bothOperands .loadConst (parseInt (stripCommas x)) (parseReg y)
      | _ => .outsideForms
    else if mnemonic = "LOAD_MEM".toList then
      match operands with
      | [x, y] => bothOperands .loadMem (parseNat (stripCommas x)) (parseReg y)
      | _ => .outsideForms
    else if mnemonic = "STORE_MEM".toList then
      match operands with
      | [x, y] => bothOperands .storeMem (parseReg (stripCommas x)) (parseNat y)
      | _ => .outsideForms
    else if mnemonic = "SQRT".toList then
      match operands with
      | [x, y] => bothOperands .sqrt (parseReg (stripCommas x)) (parseReg y)
      | _ => .outsideForms
    else .unknownInstruction

/-- The lines of a program, blank ones skipped; the first error ends the assembly, so no partial program results (R79, R82). -/
def parseLines : List (List Char) → AsmResult (List AsmLine)
  | [] => .ok []
  | line :: rest =>
    match asmTokens line with
    | [] => parseLines rest
    | mnemonic :: operands =>
      match parseOperands mnemonic operands, parseLines rest with
      | .ok l, .ok ls => .ok (l :: ls)
      | .ok _, .unknownInstruction => .unknownInstruction
      | .ok _, .outsideForms => .outsideForms
      | .unknownInstruction, _ => .unknownInstruction
      | .outsideForms, _ => .outsideForms

/-- The program image: the encodings of the lines, in order and concatenated (R83). -/
def assembleLines (m : OpcodeMap) : List AsmLine → List Byte
  | [] => []
  | l :: ls => assembleLine m l ++ assembleLines m ls

/-- Assemble a text. -/
def assemble (m : OpcodeMap) (text : List Char) : AsmResult (List Byte) :=
  match parseLines (asmLines text) with
  | .ok ls => .ok (assembleLines m ls)
  | .unknownInstruction => .unknownInstruction
  | .outsideForms => .outsideForms

end Sys2Proof.Machine
end

