-- ==== Sys2Proof/Machine/DecoderBlock.lean ====
section
/-!
DEFINITION. The decoder as a hardware block (spec/40_decode_dispatch.md R104): its outputs as a combinational function of the six
bytes at pc and of the bytes left, and the datapath those outputs drive. It adds no behaviour: `exec` is the machine.
-/

namespace Sys2Proof.Machine

/-- What the write port of the datapath receives. -/
inductive ResultSelect where
  | constant (b : Nat) | memRead | regRead | squareRoot
  deriving DecidableEq, Repr

/-- One entry of the column "fault checks, in order". -/
inductive Check where
  | register (i : Nat) | memory (a : Nat) | sign (i : Nat)
  deriving DecidableEq, Repr

/-- One row of the table of R104: `none` where the row has a dash. -/
structure Ports where
  opcode   : Opcode
  width    : Nat
  regRead  : Option Nat
  memRead  : Option Nat
  result   : ResultSelect
  regWrite : Option Nat
  memWrite : Option Nat
  checks   : List Check
  deriving DecidableEq, Repr

/-- The table of R104. -/
def ports : Instr → Ports
  | .loadConst b c => ⟨.loadConst, 6, none, none, .constant b, some c, none, [.register c]⟩
  | .loadMem b c   => ⟨.loadMem, 6, none, some b, .memRead, some c, none, [.memory b, .register c]⟩
  | .storeMem b c  => ⟨.storeMem, 6, some b, none, .regRead, none, some c, [.register b, .memory c]⟩
  | .sqrt b c      => ⟨.sqrt, 3, some c, none, .squareRoot, some b, none, [.register c, .sign c, .register b]⟩

/-- What the block puts out. -/
inductive BlockOutput where
  | unknownOpcode (op : Byte)
  | truncated (op : Byte) (available : Nat)
  | drive (p : Ports)
  deriving DecidableEq, Repr

/-- The block: `window` is P[pc..pc+5], whatever stands in the bytes past the end of the program, and `left` is PLEN - pc, at
least 1. DESIGN CHOICE: on an empty window, which no pc inside the program gives, the opcode is taken as 0 (log entry 20). -/
def decoderBlock (m : OpcodeMap) (window : List Byte) (left : Nat) : BlockOutput :=
  match m.opcode? (window.headD 0) with
  | none => .unknownOpcode (window.headD 0)
  | some o =>
    if left < o.width then .truncated (window.headD 0) left
    else
      .drive (ports (o.instr (decodeFields o (window.take o.width)).2.1 (decodeFields o (window.take o.width)).2.2))

/-- The fault of one check, if it fails. -/
def runCheck (o : Opcode) (s : State) : Check → Option Fault
  | .register i => regCheck o i s
  | .memory a => memCheck o a s
  | .sign i => signCheck o i s

/-- The value on a read port. DESIGN CHOICE: 0 on a port that is not used, which no result selects (log entry 20). -/
def readPort (read : Nat → Int) : Option Nat → Int
  | some i => read i
  | none => 0

/-- The value the block selects for its write port. -/
def selectResult (p : Ports) (s : State) : Int :=
  match p.result with
  | .constant b => b
  | .memRead => readPort s.readMem p.memRead
  | .regRead => readPort s.readReg p.regRead
  | .squareRoot => isqrt (readPort s.readReg p.regRead).toNat

/-- The datapath: one register read port, one register write port, one memory read port, one memory write port, the square-root
unit and the pc adder (R104). -/
def datapath (p : Ports) (s : State) : Result State :=
  let afterReg := match p.regWrite with
    | some i => s.writeReg i (selectResult p s)
    | none => s
  let afterMem := match p.memWrite with
    | some a => afterReg.writeMem a (selectResult p s)
    | none => afterReg
  commit (p.checks.map (runCheck p.opcode s)) s (afterMem.advance p.width)

end Sys2Proof.Machine
end

