-- ==== Sys2Proof/Machine/HostInterface.lean ====
section
/-!
DEFINITION. The host's operations on the core (spec/60_exceptions.md R159-R163): they act between steps, and are functions
beside `step`, not part of it (log entry 10).
-/

namespace Sys2Proof.Machine

/-- What `step()` returns (40_decode_dispatch.md R90). -/
inductive Signal where
  | halted
  | continuing
  | fault (f : Fault)
  deriving DecidableEq, Repr

/-- The signal of a step that went from `s` to `t`: the fault `t` has latched, or whether `s` was halted
(40_decode_dispatch.md R92, R97; 60_exceptions.md R140). -/
def signalOf (s t : State) : Signal :=
  match t.latch with
  | some f => .fault f
  | none => if s.plen ≤ s.pc then .halted else .continuing

/-- `step()` as the host sees it: the signal and the state after. `none` where `step` refuses, which it never does. -/
def hostStep (s : State) : Option (Signal × State) :=
  match step s with
  | .next t => some (signalOf s t, t)
  | .fault f => some (.fault f, s)
  | .refused _ => none

/-- At most `fuel` steps, until one does not answer `continuing`; `none` when the fuel runs out. -/
def runFuel : Nat → State → Option (Signal × State)
  | 0, _ => none
  | fuel + 1, s =>
    match hostStep s with
    | some (.continuing, t) => runFuel fuel t
    | some (.halted, t) => some (.halted, t)
    | some (.fault f, t) => some (.fault f, t)
    | none => none

/-- `run()` (40_decode_dispatch.md R99), under the fuel of R101. -/
def run (s : State) : Option (Signal × State) := runFuel (s.plen / 3 + 1) s

/-- Whether a host index names a cell of an array of `size` cells; a negative index does not (60_exceptions.md R162). -/
def inArray (size : Nat) (i : Int) : Bool := decide (0 ≤ i) && decide (i < size)

/-- The operations of 60_exceptions.md R159. -/
inductive HostOp where
  | load (p : List Byte)
  | step
  | run
  | readReg (i : Int)
  | readMem (a : Int)
  | writeReg (i v : Int)
  | writeMem (a v : Int)
  | readPC
  deriving DecidableEq, Repr

/-- What an operation returns to the host. -/
inductive HostReply where
  /-- Done, with nothing to return. -/
  | done
  /-- What `step()` or `run()` returned. -/
  | signal (sig : Signal)
  /-- The value of a cell. -/
  | value (v : Int)
  /-- The program counter. -/
  | offset (pc : Nat)
  /-- Refused: no effect and no value (60_exceptions.md R162). -/
  | refused
  deriving DecidableEq, Repr

/-- The reply and the state after `step()` or `run()`. -/
def signalReply (s : State) : Option (Signal × State) → HostReply × State
  | some (sig, t) => (.signal sig, t)
  | none => (.refused, s)

/-- One host operation: the reply and the state after it (60_exceptions.md R159, R160, R162). A write of a value that a finite
cell cannot hold is refused (92_eei_decisions.md D2). -/
def hostApply : HostOp → State → HostReply × State
  | .load p, s => (.done, s.load p)
  | .step, s => signalReply s (hostStep s)
  | .run, s => signalReply s (run s)
  | .readReg i, s => if inArray s.config.regCount i then (.value (s.readReg i.toNat), s) else (.refused, s)
  | .readMem a, s => if inArray s.config.memSize a then (.value (s.readMem a.toNat), s) else (.refused, s)
  | .writeReg i v, s =>
    if inArray s.config.regCount i && fits s.config v then (.done, s.writeReg i.toNat v) else (.refused, s)
  | .writeMem a v, s =>
    if inArray s.config.memSize a && fits s.config v then (.done, s.writeMem a.toNat v) else (.refused, s)
  | .readPC, s => (.offset s.pc, s)

end Sys2Proof.Machine
end

