-- ==== Sys2Proof/Safety.lean ====
section
/-!
DEFINITION. What claims about the core are stated in: the well-formed states, the cells that hold no negative value, the
instruction boundaries of a program, and a run that ended well (spec/40_decode_dispatch.md R105).
-/

namespace Sys2Proof.Machine

/-- Every cell of an array holds an integer that a property admits. -/
def Cells.all (p : Int → Bool) : Cells → Bool
  | [] => true
  | (_, v) :: rest => p v && Cells.all p rest

/-- The well-formed states: admissible parameters, both arrays in canonical form and inside their sizes, every cell's integer
one the cell can hold, and a latched fault that records the pc it stands at (00_scope.md R6, 60_exceptions.md R140). -/
def State.wf (s : State) : Bool :=
  s.config.wf && RegFile.wf s.config.regCount s.regs && Memory.wf s.config.memSize s.mem
    && Cells.all (fits s.config) s.regs && Cells.all (fits s.config) s.mem
    && (match s.latch with | none => true | some f => decide (f.pc = s.pc))

/-- No register and no memory cell is negative (42_alu_sqrt.md R131, 60_exceptions.md R160). -/
def State.nonneg (s : State) : Bool :=
  Cells.all (fun v => decide (0 ≤ v)) s.regs && Cells.all (fun v => decide (0 ≤ v)) s.mem

/-- The offsets of a program at which an instruction starts or the last one ends, counted from offset 0 by the widths of the
instructions (10_state.md R27). -/
inductive Boundary (m : OpcodeMap) (p : List Byte) : Nat → Prop where
  | entry : Boundary m p 0
  | next (k : Nat) (i : Instr) (rest : List Byte) :
      Boundary m p k → decode m (p.drop k) = .instr i rest → Boundary m p (k + i.width)

/-- `I[hi:lo]`, the slice notation of 00_scope.md R9, for `lo ≤ hi`. -/
def bits (n hi lo : Nat) : Nat := n / 2 ^ lo % 2 ^ (hi - lo + 1)

/-- `P[k]`, the program byte at an offset (00_scope.md R9). DESIGN CHOICE: R9 defines it for `k < PLEN` alone, and past the end
this function is total and answers 0; fetching does not use it, and every statement that does has its offsets inside the
program (log entry 20). -/
def State.byteAt (s : State) (k : Nat) : Byte := s.program.getD k 0

/-- `LE(k, W)`, the sum over the `W` program bytes from offset `k`, byte `j` weighted by `2 ^ (8 * j)` (00_scope.md R9).
DESIGN CHOICE: bytes past the end of the program count as 0, as in `byteAt`; every statement about it has `k + W ≤ PLEN` (log
entry 20). -/
def State.le (s : State) (k : Nat) : Nat → Nat
  | 0 => 0
  | w + 1 => State.le s k w + 2 ^ (8 * w) * (s.byteAt (k + w)).toNat

/-- A run has ended well: pc is at or past the end of the program and no fault is latched (R105). -/
def State.endedWell (s : State) : Bool := decide (s.plen ≤ s.pc) && decide (s.latch = none)

end Sys2Proof.Machine
end

