-- ==== Sys2Proof/Certificates/Slice0/Obligations.lean ====
section
/-!
DEFINITION. The statements for the provers. Each docstring names the rules or the sections of spec/ it formalises.
-/

open Sys2Proof Sys2Proof.Machine

/-! ### The codec -/

/-- 30_encoding.md R72, for every opcode and every field value within its width. -/
def Obligations.RoundTripLaw : Prop :=
  ∀ (o : Opcode) (a b c : Nat), a < 2 ^ 8 → b < 2 ^ o.layout.bWidth → c < 2 ^ o.layout.cWidth →
    decodeFields o (encodeFields o a b c) = (a, b, c)

/-- 30_encoding.md R73, for every opcode and all integers, negative and oversized ones among them. -/
def Obligations.TruncationLaw : Prop :=
  ∀ (o : Opcode) (a b c : Int),
    decodeFields o (encodeFields o a b c) =
      ((a % 2 ^ 8).toNat, (b % 2 ^ o.layout.bWidth).toNat, (c % 2 ^ o.layout.cWidth).toNat)

/-- 30_encoding.md R70: the masked, shifted and joined integer `I` is written as `W` little-endian bytes, and its highest
bit lies below 42, 41 or 22, so no byte conversion discards one. R74: there are exactly 6 or 3 bytes. -/
def Obligations.EncodeMasksShiftsAndWritesLittleEndian : Prop :=
  ∀ a b c : Int,
    let lc := (a % 2 ^ 8).toNat + 2 ^ 8 * (b % 2 ^ 27).toNat + 2 ^ 35 * (c % 2 ^ 7).toNat
    let lm := (a % 2 ^ 8).toNat + 2 ^ 8 * (b % 2 ^ 26).toNat + 2 ^ 34 * (c % 2 ^ 7).toNat
    let sm := (a % 2 ^ 8).toNat + 2 ^ 8 * (b % 2 ^ 7).toNat + 2 ^ 15 * (c % 2 ^ 26).toNat
    let sq := (a % 2 ^ 8).toNat + 2 ^ 8 * (b % 2 ^ 7).toNat + 2 ^ 15 * (c % 2 ^ 7).toNat
    (lc < 2 ^ 42 ∧ lm < 2 ^ 41 ∧ sm < 2 ^ 41 ∧ sq < 2 ^ 22) ∧
    ((encodeFields .loadConst a b c).length = 6 ∧ (encodeFields .loadMem a b c).length = 6 ∧
      (encodeFields .storeMem a b c).length = 6 ∧ (encodeFields .sqrt a b c).length = 3) ∧
    (∀ k, k < 6 →
      ((encodeFields .loadConst a b c).getD k 0).toNat = bits lc (8 * k + 7) (8 * k) ∧
      ((encodeFields .loadMem a b c).getD k 0).toNat = bits lm (8 * k + 7) (8 * k) ∧
      ((encodeFields .storeMem a b c).getD k 0).toNat = bits sm (8 * k + 7) (8 * k)) ∧
    (∀ k, k < 3 → ((encodeFields .sqrt a b c).getD k 0).toNat = bits sq (8 * k + 7) (8 * k))

/-- The round trip at the level of instructions (30_encoding.md section 4, 40_decode_dispatch.md section 1): decoding the
encoding of any well-formed instruction gives it back, whatever bytes follow, for every opcode map of distinct bytes. -/
def Obligations.DecodeOfEncodeIsTheInstruction : Prop :=
  ∀ (m : OpcodeMap) (i : Instr) (rest : List Byte), m.distinct = true → i.wf = true →
    decode m (encode m i ++ rest) = .instr i rest

/-- The other direction (30_encoding.md section 3; the ignored bits are the spec's own inference there): a decoded instruction
is well-formed, and its encoding is the bytes it was decoded from with the unused top bits cleared. -/
def Obligations.EncodeOfDecodeClearsUnusedBits : Prop :=
  ∀ (m : OpcodeMap) (bytes rest : List Byte) (i : Instr), decode m bytes = .instr i rest →
    i.wf = true ∧ bytes = bytes.take i.width ++ rest ∧ (bytes.take i.width).length = i.width ∧
      leNat (encode m i) =
        leNat (bytes.take i.width) % 2 ^ (i.opcode.layout.cOff + i.opcode.layout.cWidth)

/-- 30_encoding.md section 3 (the spec's own inference from "right-shift then mask"): two instructions that differ only in the
unused top bits decode alike. -/
def Obligations.UnusedBitsAreIgnored : Prop :=
  ∀ (m : OpcodeMap) (o : Opcode) (op : Byte) (x y rest : List Byte), m.opcode? op = some o →
    (op :: x).length = o.width → (op :: y).length = o.width →
    leNat (op :: x) % 2 ^ (o.layout.cOff + o.layout.cWidth) = leNat (op :: y) % 2 ^ (o.layout.cOff + o.layout.cWidth) →
    decode m (op :: (x ++ rest)) = decode m (op :: (y ++ rest))

/-- 30_encoding.md R67: in every format field A is the first byte, in the encoder and in the decoder, and the byte that
selects the instruction is that byte. -/
def Obligations.OpcodeFieldIsFirstByte : Prop :=
  (∀ (o : Opcode) (op : Byte) (rest : List Byte), (decodeFields o (op :: rest)).1 = op.toNat) ∧
  (∀ (o : Opcode) (op : Byte) (b c : Int), (encodeFields o op.toNat b c).head? = some op) ∧
  (∀ (m : OpcodeMap) (bytes rest : List Byte) (i : Instr), decode m bytes = .instr i rest →
    bytes.head? = some (m.byte i.opcode))

/-- The four encodings of 95_test_vectors.md section 1 (W5 to W8), under the default opcode map (log entry 7). -/
def Obligations.WorkedExamplesDecode : Prop :=
  decode OpcodeMap.default [0x78, 0xEA, 0x00, 0x00, 0xA0, 0x02] = .instr (.loadConst 234 84) [] ∧
  decode OpcodeMap.default [0x81, 0x9B, 0x02, 0x00, 0xC8, 0x00] = .instr (.loadMem 667 50) [] ∧
  decode OpcodeMap.default [0x7B, 0xED, 0x3C, 0x01, 0x00, 0x00] = .instr (.storeMem 109 633) [] ∧
  decode OpcodeMap.default [0x35, 0xF1, 0x23] = .instr (.sqrt 113 71) []

/-- A program is its instructions' encodings without separators, each found where the last one ends (30_encoding.md
sections 5 and 6): disassembling the image of any well-formed sequence gives the sequence back. -/
def Obligations.ProgramImageDisassembles : Prop :=
  ∀ (m : OpcodeMap) (is : List Instr), m.distinct = true → (∀ i ∈ is, i.wf = true) →
    disassemble m (encodeAll m is) = some is

/-- The assembler's operand order and masking (30_encoding.md section 6): the image of any lines, whatever their operands,
disassembles to the instructions whose fields are the operands reduced to the fields' widths. -/
def Obligations.AssembledLinesDisassemble : Prop :=
  ∀ (m : OpcodeMap) (ls : List AsmLine), m.distinct = true →
    disassemble m (assembleLines m ls) = some (ls.map fun l =>
      match l with
      | .loadConst literal reg => .loadConst (literal % 2 ^ 27).toNat (reg % 2 ^ 7)
      | .loadMem addr reg => .loadMem (addr % 2 ^ 26) (reg % 2 ^ 7)
      | .storeMem reg addr => .storeMem (reg % 2 ^ 7) (addr % 2 ^ 26)
      | .sqrt out inp => .sqrt (out % 2 ^ 7) (inp % 2 ^ 7))

/-! ### The step -/

/-- A step runs the decoded instruction, and adds nothing around it (40_decode_dispatch.md section 1). -/
def Obligations.StepRunsTheDecodedInstruction : Prop :=
  ∀ (s : State) (i : Instr) (rest : List Byte), s.latch = none →
    decode s.config.opcodes (s.program.drop s.pc) = .instr i rest → i.wf = true ∧ step s = exec i s

/-- The dispatch table row by row, each field the slice of the little-endian instruction integer that the table names
(40_decode_dispatch.md section 1). The four opcode bytes are the default map's, which the spec derives by its own decision D1
(DEDUCED, log entry 7); that a fault is raised as a next state is log entry 2. -/
def Obligations.DispatchTable : Prop :=
  ∀ s : State, s.latch = none → s.config.opcodes = OpcodeMap.default → s.pc < s.plen →
    (s.byteAt s.pc = 0x78 → s.pc + 6 ≤ s.plen →
      step s = exec (.loadConst (bits (s.le s.pc 6) 34 8) (bits (s.le s.pc 6) 41 35)) s) ∧
    (s.byteAt s.pc = 0x81 → s.pc + 6 ≤ s.plen →
      step s = exec (.loadMem (bits (s.le s.pc 6) 33 8) (bits (s.le s.pc 6) 40 34)) s) ∧
    (s.byteAt s.pc = 0x7B → s.pc + 6 ≤ s.plen →
      step s = exec (.storeMem (bits (s.le s.pc 6) 14 8) (bits (s.le s.pc 6) 40 15)) s) ∧
    (s.byteAt s.pc = 0x35 → s.pc + 3 ≤ s.plen →
      step s = exec (.sqrt (bits (s.le s.pc 3) 14 8) (bits (s.le s.pc 3) 21 15)) s) ∧
    (s.byteAt s.pc ≠ 0x78 → s.byteAt s.pc ≠ 0x81 → s.byteAt s.pc ≠ 0x7B → s.byteAt s.pc ≠ 0x35 →
      step s = raise (.unknownOpcode s.pc (s.byteAt s.pc)) s)

/-- At or past the end of the program a step returns halted and mutates nothing, and an empty program halts at once
(40_decode_dispatch.md section 1). That `step` answers the same state as a next state there is the model's choice (DESIGN
CHOICE, log entry 3). -/
def Obligations.HaltedStepChangesNothing : Prop :=
  (∀ s : State, s.latch = none → s.plen ≤ s.pc → step s = .next s ∧ hostStep s = some (.halted, s)) ∧
  (∀ s : State, hostStep (s.load []) = some (.halted, s.load []))

/-- 60_exceptions.md R142: an opcode byte that is none of the four is a fatal fault of the step and of the run, whatever
follows it. -/
def Obligations.UnknownOpcodeIsFatal : Prop :=
  ∀ s : State, s.latch = none → s.pc < s.plen → (∀ o : Opcode, s.byteAt s.pc ≠ s.config.opcodes.byte o) →
    ∃ t, hostStep s = some (.fault (.unknownOpcode s.pc (s.byteAt s.pc)), t) ∧
      run s = some (.fault (.unknownOpcode s.pc (s.byteAt s.pc)), t)

/-- A legal opcode whose instruction is cut off by the end of the program (40_decode_dispatch.md section 1; the spec's own
decisions D5 and D10, log entries 12 and 11). That the raising step answers a next state with the latch set is the model's
choice (DESIGN CHOICE, log entry 2). -/
def Obligations.TruncatedInstructionFaults : Prop :=
  ∀ (s : State) (o : Opcode), s.latch = none → s.pc < s.plen →
    s.config.opcodes.opcode? (s.byteAt s.pc) = some o → s.plen < s.pc + o.width →
    step s = .next (s.latched (.truncatedInstruction s.pc (s.byteAt s.pc) (s.plen - s.pc)))

/-- Where a step stops (40_decode_dispatch.md section 1, the spec's own decisions D9 and D10; log entry 2): it never refuses,
it answers a fault exactly when the latch holds that fault, and the host always gets a signal. -/
def Obligations.StepStopsOnlyOnALatchedFault : Prop :=
  ∀ s : State, (∀ r, step s ≠ .refused r) ∧ (∀ f, step s = .fault f ↔ s.latch = some f) ∧
    (∀ f, s.latch = some f → hostStep s = some (.fault f, s)) ∧ (∃ sig t, hostStep s = some (sig, t))

/-- A step that decodes an instruction either changes no cell but the one the instruction names, advances pc by its width and
continues, or raises a fault and changes no cell and not pc (40_decode_dispatch.md section 1). The named cell is register C for
LOAD_CONST and LOAD_MEM, register B for SQRT, memory cell C for STORE_MEM; what is written there is stated per instruction
below. -/
def Obligations.ExecuteAndCommit : Prop :=
  ∀ (s : State) (i : Instr) (rest : List Byte), s.latch = none →
    decode s.config.opcodes (s.program.drop s.pc) = .instr i rest →
    (∃ t, hostStep s = some (.continuing, t) ∧ t.pc = s.pc + i.width ∧
      (match i with
        | .loadConst _ c => (∀ r, r ≠ c → t.readReg r = s.readReg r) ∧ ∀ a, t.readMem a = s.readMem a
        | .loadMem _ c => (∀ r, r ≠ c → t.readReg r = s.readReg r) ∧ ∀ a, t.readMem a = s.readMem a
        | .storeMem _ c => (∀ r, t.readReg r = s.readReg r) ∧ ∀ a, a ≠ c → t.readMem a = s.readMem a
        | .sqrt b _ => (∀ r, r ≠ b → t.readReg r = s.readReg r) ∧ ∀ a, t.readMem a = s.readMem a)) ∨
    (∃ f t, hostStep s = some (.fault f, t) ∧ t.regs = s.regs ∧ t.mem = s.mem ∧ t.pc = s.pc)

/-- 10_state.md R26: pc is set to 0 by `load`, advanced by 6 or 3 by a step that continues, and changed by nothing else. -/
def Obligations.PcChangesInThreeWays : Prop :=
  (∀ (s : State) (p : List Byte), (hostApply (.load p) s).2.pc = 0) ∧
  (∀ (s t : State), hostStep s = some (.continuing, t) →
    ∃ i rest, decode s.config.opcodes (s.program.drop s.pc) = .instr i rest ∧
      t.pc = s.pc + (match i with | .loadConst _ _ => 6 | .loadMem _ _ => 6 | .storeMem _ _ => 6 | .sqrt _ _ => 3)) ∧
  (∀ (s t : State) (sig : Signal), hostStep s = some (sig, t) → sig ≠ .continuing → t.pc = s.pc) ∧
  (∀ (s : State) (i v : Int), (hostApply (.readReg i) s).2.pc = s.pc ∧ (hostApply (.readMem i) s).2.pc = s.pc ∧
    (hostApply (.writeReg i v) s).2.pc = s.pc ∧ (hostApply (.writeMem i v) s).2.pc = s.pc ∧
    (hostApply .readPC s).2.pc = s.pc)

/-- 70_reset_and_hazards.md R177: no instruction writes the program buffer; nor does a step change it or the parameters. -/
def Obligations.ProgramBufferIsReadOnly : Prop :=
  (∀ (i : Instr) (s t : State), exec i s = .next t → t.program = s.program ∧ t.config = s.config) ∧
  (∀ s t : State, step s = .next t → t.program = s.program ∧ t.config = s.config)

/-! ### The four instructions: result, frame and completion -/

/-- LOAD_CONST completes whenever its register exists, and changes that register and pc alone (41_data_movement.md,
LOAD_CONST). -/
def Obligations.LoadConstWritesTheConstant : Prop :=
  ∀ (s : State) (b c : Nat), s.wf = true → c < s.config.regCount →
    ∃ t, exec (.loadConst b c) s = .next t ∧ t.readReg c = b ∧ (∀ r, r ≠ c → t.readReg r = s.readReg r) ∧
      (∀ a, t.readMem a = s.readMem a) ∧ t.pc = s.pc + 6 ∧ t.latch = s.latch ∧ t.program = s.program ∧
      t.config = s.config

/-- LOAD_MEM completes whenever its cell and its register exist: the register holds the cell's integer, whatever its sign and
magnitude, and all else but pc is unchanged (41_data_movement.md, LOAD_MEM). -/
def Obligations.LoadMemCopiesTheCell : Prop :=
  ∀ (s : State) (b c : Nat), s.wf = true → b < s.config.memSize → c < s.config.regCount →
    ∃ t, exec (.loadMem b c) s = .next t ∧ t.readReg c = s.readMem b ∧ (∀ r, r ≠ c → t.readReg r = s.readReg r) ∧
      (∀ a, t.readMem a = s.readMem a) ∧ t.pc = s.pc + 6 ∧ t.latch = s.latch ∧ t.program = s.program ∧
      t.config = s.config

/-- STORE_MEM completes whenever its register and its cell exist: cell `c` holds the register's integer, every other cell and
every register is unchanged (41_data_movement.md, STORE_MEM). -/
def Obligations.StoreMemCopiesTheRegister : Prop :=
  ∀ (s : State) (b c : Nat), s.wf = true → b < s.config.regCount → c < s.config.memSize →
    ∃ t, exec (.storeMem b c) s = .next t ∧ t.readMem c = s.readReg b ∧ (∀ a, a ≠ c → t.readMem a = s.readMem a) ∧
      (∀ r, t.readReg r = s.readReg r) ∧ t.pc = s.pc + 6 ∧ t.latch = s.latch ∧ t.program = s.program ∧
      t.config = s.config

/-- SQRT completes whenever both registers exist and the source is not negative, its source and destination the same register
or not: the destination holds the greatest integer whose square is at most the source's old value (42_alu_sqrt.md, SQRT; exact
at every magnitude by the spec's own decision D21). -/
def Obligations.SqrtWritesTheIntegerRoot : Prop :=
  ∀ (s : State) (b c : Nat), s.wf = true → b < s.config.regCount → c < s.config.regCount → 0 ≤ s.readReg c →
    ∃ t, exec (.sqrt b c) s = .next t ∧ 0 ≤ t.readReg b ∧ t.readReg b * t.readReg b ≤ s.readReg c ∧
      s.readReg c < (t.readReg b + 1) * (t.readReg b + 1) ∧ (∀ r, r ≠ b → t.readReg r = s.readReg r) ∧
      (∀ a, t.readMem a = s.readMem a) ∧ t.pc = s.pc + 3 ∧ t.latch = s.latch ∧ t.program = s.program ∧
      t.config = s.config

/-- `isqrt(v)` is the greatest integer whose square is at most `v` (42_alu_sqrt.md, integer arithmetic laws; exact at every
magnitude by the spec's own decision D21). -/
def Obligations.IsqrtIsTheGreatestRoot : Prop :=
  ∀ v r : Nat, r * r ≤ v ↔ r ≤ isqrt v

/-- The operand faults of the data-movement instructions, in their order (60_exceptions.md section 1; the spec's own decisions
D6, D7, D10 and D12, log entries 11 and 12): the state after is the state before, plus the latch. That `exec` answers it as a
next state is the model's choice (DESIGN CHOICE, log entry 2). -/
def Obligations.DataMovementOperandFaults : Prop :=
  ∀ (s : State) (b c : Nat),
    (s.config.regCount ≤ c → exec (.loadConst b c) s =
      .next (s.latched (.indexOutOfRange s.pc s.config.opcodes.loadConst .register c))) ∧
    (s.config.memSize ≤ b → exec (.loadMem b c) s =
      .next (s.latched (.indexOutOfRange s.pc s.config.opcodes.loadMem .memory b))) ∧
    (b < s.config.memSize → s.config.regCount ≤ c → exec (.loadMem b c) s =
      .next (s.latched (.indexOutOfRange s.pc s.config.opcodes.loadMem .register c))) ∧
    (s.config.regCount ≤ b → exec (.storeMem b c) s =
      .next (s.latched (.indexOutOfRange s.pc s.config.opcodes.storeMem .register b))) ∧
    (b < s.config.regCount → s.config.memSize ≤ c → exec (.storeMem b c) s =
      .next (s.latched (.indexOutOfRange s.pc s.config.opcodes.storeMem .memory c)))

/-- The operand faults of SQRT, in their order: source index, sign, destination index (60_exceptions.md section 1; the spec's
own decisions D6, D8, D10 and D12, log entries 11 and 12). That `exec` answers the latched state as a next state is the model's
choice (DESIGN CHOICE, log entry 2). -/
def Obligations.SqrtOperandFaults : Prop :=
  ∀ (s : State) (b c : Nat),
    (s.config.regCount ≤ c → exec (.sqrt b c) s =
      .next (s.latched (.indexOutOfRange s.pc s.config.opcodes.sqrt .register c))) ∧
    (c < s.config.regCount → s.readReg c < 0 → exec (.sqrt b c) s =
      .next (s.latched (.invalidOperand s.pc s.config.opcodes.sqrt c (s.readReg c)))) ∧
    (c < s.config.regCount → 0 ≤ s.readReg c → s.config.regCount ≤ b → exec (.sqrt b c) s =
      .next (s.latched (.indexOutOfRange s.pc s.config.opcodes.sqrt .register b)))

/-- On a core of the default sizes whose cells hold no negative integer, every instruction that decodes completes unless it
names a memory address of 2048 or more: no register index is out of range there (10_state.md section 2, 60_exceptions.md
section 1). -/
def Obligations.DefaultCoreCompletes : Prop :=
  ∀ (s : State) (i : Instr), s.config.regCount = 256 → s.config.memSize = 2048 → s.nonneg = true → s.latch = none →
    i.wf = true →
    (∀ b c, i = .loadMem b c → b < 2048) → (∀ b c, i = .storeMem b c → c < 2048) →
    ∃ t, exec i s = .next t ∧ t.latch = none ∧ t.pc = s.pc + i.width

/-- 10_state.md R23: the registers an instruction writes and reads, and that it writes one cell at most. An instruction that
completes writes its named cell; no other register changes, STORE_MEM none; no memory cell changes but the one STORE_MEM
names; and two cores that agree on everything but the registers the instruction does not read end
alike, up to those registers. -/
def Obligations.RegisterAccessByInstruction : Prop :=
  (∀ (s t : State) (b c : Nat), s.wf = true → s.latch = none →
    (exec (.loadConst b c) s = .next t →
      (t.latch = none → t.readReg c = b) ∧ (∀ r, r ≠ c → t.readReg r = s.readReg r) ∧
        ∀ a, t.readMem a = s.readMem a) ∧
    (exec (.loadMem b c) s = .next t →
      (t.latch = none → t.readReg c = s.readMem b) ∧ (∀ r, r ≠ c → t.readReg r = s.readReg r) ∧
        ∀ a, t.readMem a = s.readMem a) ∧
    (exec (.storeMem b c) s = .next t →
      (t.latch = none → t.readMem c = s.readReg b) ∧ (∀ r, t.readReg r = s.readReg r) ∧
        ∀ a, a ≠ c → t.readMem a = s.readMem a) ∧
    (exec (.sqrt b c) s = .next t →
      (t.latch = none → t.readReg b = isqrt (s.readReg c).toNat) ∧ (∀ r, r ≠ b → t.readReg r = s.readReg r) ∧
        ∀ a, t.readMem a = s.readMem a)) ∧
  (∀ (s t u : State) (x : Cells) (i : Instr), s.wf = true → ({ s with regs := x } : State).wf = true → s.latch = none →
    (∀ b c, i = .storeMem b c → Cells.read x b = s.readReg b) → (∀ b c, i = .sqrt b c → Cells.read x c = s.readReg c) →
    exec i s = .next t → exec i { s with regs := x } = .next u →
    u.latch = t.latch ∧ u.pc = t.pc ∧ u.mem = t.mem ∧
      (t.latch = none → ∀ b c, (i = .loadConst b c ∨ i = .loadMem b c → u.readReg c = t.readReg c) ∧
        (i = .sqrt b c → u.readReg b = t.readReg b)))

/-- A store is seen by the load that follows it, and the loaded value by the instruction after that (20_memory.md section 5,
70_reset_and_hazards.md section 3). -/
def Obligations.StoreThenLoadReturnsTheValue : Prop :=
  ∀ (s : State) (r a q : Nat), s.wf = true → r < s.config.regCount → a < s.config.memSize → q < s.config.regCount →
    ∃ t u, exec (.storeMem r a) s = .next t ∧ exec (.loadMem a q) t = .next u ∧ u.readReg q = s.readReg r ∧
      u.readMem a = s.readReg r

/-! ### Faults and the way out of them -/

/-- 60_exceptions.md R148: the step that raises a fault saves nothing and transfers control nowhere; the fault is returned by
the step and by the run, and held in the latch. -/
def Obligations.FaultSavesNothing : Prop :=
  ∀ (s t : State) (f : Fault), s.latch = none → hostStep s = some (.fault f, t) →
    run s = some (.fault f, t) ∧ t.latch = some f ∧ t.pc = s.pc ∧ t.regs = s.regs ∧ t.mem = s.mem ∧
      t.program = s.program ∧ t.config = s.config

/-- 60_exceptions.md R149: no instruction and no host operation but `load` leaves a faulted state, and `load` clears the latch
and restarts at pc 0. -/
def Obligations.OnlyLoadLeavesAFaultedState : Prop :=
  ∀ (s : State) (f : Fault), s.latch = some f →
    (∀ i t, exec i s = .next t → t.latch ≠ none) ∧
    (∀ op, (∀ p, op ≠ .load p) → (hostApply op s).2.latch = some f ∧ (hostApply op s).2.pc = s.pc) ∧
    (∀ p, (hostApply (.load p) s).2.latch = none ∧ (hostApply (.load p) s).2.pc = 0 ∧
      (hostApply (.load p) s).2.program = p)

/-- A halted core stays halted under every host operation but `load` (40_decode_dispatch.md section 2, the spec's own
inference). -/
def Obligations.HaltedIsStable : Prop :=
  ∀ (s : State) (op : HostOp), s.latch = none → s.plen ≤ s.pc → (∀ p, op ≠ .load p) →
    (hostApply op s).2.latch = none ∧ (hostApply op s).2.pc = s.pc ∧ (hostApply op s).2.program = s.program ∧
      hostStep (hostApply op s).2 = some (.halted, (hostApply op s).2)

/-! ### The run -/

/-- 40_decode_dispatch.md R99: a run is steps until one answers halted or a fault; the empty program takes no instruction and
leaves registers and memory unchanged. -/
def Obligations.RunRepeatsStep : Prop :=
  (∀ s t : State, hostStep s = some (.continuing, t) → run s = run t) ∧
  (∀ s t : State, hostStep s = some (.halted, t) → run s = some (.halted, t)) ∧
  (∀ (s t : State) (f : Fault), hostStep s = some (.fault f, t) → run s = some (.fault f, t)) ∧
  (∀ s : State, run (s.load []) = some (.halted, s.load []) ∧ (s.load []).regs = s.regs ∧ (s.load []).mem = s.mem)

/-- Every run ends, with halted or a fault, from every state; more fuel than `(PLEN - pc) / 3 + 1` steps changes nothing
(40_decode_dispatch.md section 2, the spec's own inference). -/
def Obligations.EveryRunEnds : Prop :=
  ∀ s : State, (∃ sig t, run s = some (sig, t) ∧ sig ≠ .continuing) ∧
    (∀ fuel, (s.plen - s.pc) / 3 + 1 ≤ fuel → runFuel fuel s = run s)

/-- A run ends well exactly when it answers halted: pc at or past the end and no fault latched; a run that answers a fault has
it latched (40_decode_dispatch.md section 3, the spec's own decision D23). -/
def Obligations.RunEndsWellOrFaults : Prop :=
  ∀ (s t : State) (sig : Signal), run s = some (sig, t) →
    (sig = .halted ↔ t.endedWell = true) ∧ (∀ f, sig = .fault f ↔ t.latch = some f)

/-! ### Reset, load and the host -/

/-- 10_state.md R24 and R32: at power-on every register cell and every memory cell holds 0, the memory has 2048 cells by
default and integers in them, and `load` changes no cell. -/
def Obligations.PowerOnCellsAreZeroAndLoadKeepsCells : Prop :=
  (∀ r, State.reset.readReg r = 0) ∧ (∀ a, State.reset.readMem a = 0) ∧ State.reset.config.memSize = 2048 ∧
  (∀ (s : State) (p : List Byte), (∀ r, (hostApply (.load p) s).2.readReg r = s.readReg r) ∧
    (∀ a, (hostApply (.load p) s).2.readMem a = s.readMem a))

/-- The rest of the power-on state, the spec's own decision D13 (70_reset_and_hazards.md section 1), and its default
parameters: a step before any `load` halts. -/
def Obligations.PowerOnHalts : Prop :=
  State.reset.pc = 0 ∧ State.reset.program = [] ∧ State.reset.latch = none ∧ State.reset.config.regCount = 256 ∧
  State.reset.config.opcodes = ⟨0x78, 0x81, 0x7B, 0x35⟩ ∧ hostStep State.reset = some (.halted, State.reset)

/-- 70_reset_and_hazards.md R172: after `load`, the first step runs the instruction at offset 0 of the loaded program, wherever
pc stood before and whatever the data memory holds. -/
def Obligations.ExecutionStartsAtOffsetZero : Prop :=
  ∀ (s : State) (p rest : List Byte) (i : Instr), (s.load p).pc = 0 ∧
    (decode s.config.opcodes p = .instr i rest → step (s.load p) = exec i (s.load p))

/-- The host reaches every cell, the registers no instruction can name among them, and may store any integer that a cell can
hold (60_exceptions.md section 4); and a step brings no negative value into the core. By default a cell holds every integer;
what a finite cell holds is the spec's own decision D2, and its signed range is DEDUCED (log entry 9). -/
def Obligations.HostReachesEveryCell : Prop :=
  (∀ (s : State) (i : Nat) (v : Int), s.wf = true → i < s.config.regCount → fits s.config v = true →
    (hostApply (.readReg i) s) = (.value (s.readReg i), s) ∧ (hostApply (.writeReg i v) s).1 = .done ∧
    (hostApply (.writeReg i v) s).2.readReg i = v ∧
    (∀ r, r ≠ i → (hostApply (.writeReg i v) s).2.readReg r = s.readReg r) ∧
    (∀ a, (hostApply (.writeReg i v) s).2.readMem a = s.readMem a)) ∧
  (∀ (s : State) (a : Nat) (v : Int), s.wf = true → a < s.config.memSize → fits s.config v = true →
    (hostApply (.readMem a) s) = (.value (s.readMem a), s) ∧ (hostApply (.writeMem a v) s).1 = .done ∧
    (hostApply (.writeMem a v) s).2.readMem a = v ∧
    (∀ q, q ≠ a → (hostApply (.writeMem a v) s).2.readMem q = s.readMem q) ∧
    (∀ r, (hostApply (.writeMem a v) s).2.readReg r = s.readReg r)) ∧
  (∀ (s : State) (v : Int), s.config.cellBits = none → fits s.config v = true) ∧
  (∀ s t : State, s.nonneg = true → step s = .next t → t.nonneg = true)

/-- A host access outside the arrays, or of a negative index, has no effect and returns no value (60_exceptions.md section 4,
the spec's own decision D17). -/
def Obligations.HostAccessOutsideIsRefused : Prop :=
  ∀ (s : State) (i v : Int),
    ((i < 0 ∨ (s.config.regCount : Int) ≤ i) →
      hostApply (.readReg i) s = (.refused, s) ∧ hostApply (.writeReg i v) s = (.refused, s)) ∧
    ((i < 0 ∨ (s.config.memSize : Int) ≤ i) →
      hostApply (.readMem i) s = (.refused, s) ∧ hostApply (.writeMem i v) s = (.refused, s))

/-! ### Invariants -/

/-- The power-on state is well-formed, holds no negative cell and stands at an instruction boundary
(70_reset_and_hazards.md section 1). -/
def Obligations.PowerOnMeetsTheInvariants : Prop :=
  State.reset.wf = true ∧ State.reset.nonneg = true ∧
    Boundary State.reset.config.opcodes State.reset.program State.reset.pc

/-- Every step keeps the state well-formed: both arrays in canonical form and inside their sizes, every cell's integer within a
cell of any admissible width (log entry 9), a latched fault recording the pc it stands at. -/
def Obligations.StepKeepsWellFormed : Prop :=
  ∀ s t : State, s.wf = true → step s = .next t → t.wf = true

/-- Every host operation, the run among them, keeps the state well-formed (60_exceptions.md section 4). -/
def Obligations.HostOperationsKeepWellFormed : Prop :=
  ∀ (s : State) (op : HostOp), s.wf = true → (hostApply op s).2.wf = true

/-- pc always stands at a running sum of instruction widths counted from offset 0 (10_state.md section 3, the spec's own
inference): `load` puts it there, and every step keeps it there. -/
def Obligations.PcStaysOnInstructionBoundaries : Prop :=
  (∀ (s : State) (p : List Byte), Boundary (s.load p).config.opcodes (s.load p).program (s.load p).pc) ∧
  (∀ s t : State, Boundary s.config.opcodes s.program s.pc → step s = .next t →
    Boundary t.config.opcodes t.program t.pc)

/-- On the cells that instructions write, a finite cell of any width is not observable: two cores that differ only in CELL_BITS
step alike (92_eei_decisions.md D2, the spec's own decision; log entry 9). -/
def Obligations.CellWidthIsNotObservable : Prop :=
  ∀ (s t : State) (n : Option Nat), step s = .next t →
    step { s with config := { s.config with cellBits := n } } =
      .next { t with config := { t.config with cellBits := n } }

/-! ### The decoder as a block -/

/-- The decoder block is a function of six bytes and of the bytes left, and agrees with the decoder whatever stands past the
end of the program (40_decode_dispatch.md section 3, the spec's own decision D22). -/
def Obligations.DecoderBlockAgreesWithDecode : Prop :=
  ∀ (m : OpcodeMap) (bytes padding : List Byte), bytes ≠ [] →
    (∀ i rest, decode m bytes = .instr i rest →
      decoderBlock m ((bytes ++ padding).take 6) bytes.length = .drive (ports i)) ∧
    (∀ op, decode m bytes = .unknownOpcode op →
      decoderBlock m ((bytes ++ padding).take 6) bytes.length = .unknownOpcode op) ∧
    (∀ op n, decode m bytes = .truncated op n →
      decoderBlock m ((bytes ++ padding).take 6) bytes.length = .truncated op n)

/-- The datapath driven by the block's outputs does what the instruction does (40_decode_dispatch.md section 3, the spec's own
decision D22). -/
def Obligations.DatapathDoesWhatExecDoes : Prop :=
  ∀ (i : Instr) (s : State), datapath (ports i) s = exec i s
end

