-- ==== Sys2Proof/Laws/State.lean ====
section
/-!
SUPPORT. What each update of the state does to each field, so that no later proof unfolds a record update.
-/

namespace Sys2Proof.Machine

variable (s : State) (i a w n k : Nat) (v : Int) (f : Fault) (p : List Byte)

/-! ### Writing a register -/

@[simp] theorem writeReg_config : (s.writeReg i v).config = s.config := rfl
@[simp] theorem writeReg_regs : (s.writeReg i v).regs = Cells.write s.regs i v := rfl
@[simp] theorem writeReg_mem : (s.writeReg i v).mem = s.mem := rfl
@[simp] theorem writeReg_pc : (s.writeReg i v).pc = s.pc := rfl
@[simp] theorem writeReg_program : (s.writeReg i v).program = s.program := rfl
@[simp] theorem writeReg_latch : (s.writeReg i v).latch = s.latch := rfl
@[simp] theorem writeReg_readMem : (s.writeReg i v).readMem a = s.readMem a := rfl

/-! ### Writing a memory cell -/

@[simp] theorem writeMem_config : (s.writeMem a v).config = s.config := rfl
@[simp] theorem writeMem_regs : (s.writeMem a v).regs = s.regs := rfl
@[simp] theorem writeMem_mem : (s.writeMem a v).mem = Cells.write s.mem a v := rfl
@[simp] theorem writeMem_pc : (s.writeMem a v).pc = s.pc := rfl
@[simp] theorem writeMem_program : (s.writeMem a v).program = s.program := rfl
@[simp] theorem writeMem_latch : (s.writeMem a v).latch = s.latch := rfl
@[simp] theorem writeMem_readReg : (s.writeMem a v).readReg i = s.readReg i := rfl

/-! ### Advancing the program counter -/

@[simp] theorem advance_config : (s.advance w).config = s.config := rfl
@[simp] theorem advance_regs : (s.advance w).regs = s.regs := rfl
@[simp] theorem advance_mem : (s.advance w).mem = s.mem := rfl
@[simp] theorem advance_pc : (s.advance w).pc = s.pc + w := rfl
@[simp] theorem advance_program : (s.advance w).program = s.program := rfl
@[simp] theorem advance_latch : (s.advance w).latch = s.latch := rfl
@[simp] theorem advance_readReg : (s.advance w).readReg i = s.readReg i := rfl
@[simp] theorem advance_readMem : (s.advance w).readMem a = s.readMem a := rfl

/-! ### Latching a fault -/

@[simp] theorem latched_config : (s.latched f).config = s.config := rfl
@[simp] theorem latched_regs : (s.latched f).regs = s.regs := rfl
@[simp] theorem latched_mem : (s.latched f).mem = s.mem := rfl
@[simp] theorem latched_pc : (s.latched f).pc = s.pc := rfl
@[simp] theorem latched_program : (s.latched f).program = s.program := rfl
@[simp] theorem latched_latch : (s.latched f).latch = some f := rfl
@[simp] theorem latched_readReg : (s.latched f).readReg i = s.readReg i := rfl
@[simp] theorem latched_readMem : (s.latched f).readMem a = s.readMem a := rfl

/-! ### Loading a program -/

@[simp] theorem load_config : (s.load p).config = s.config := rfl
@[simp] theorem load_regs : (s.load p).regs = s.regs := rfl
@[simp] theorem load_mem : (s.load p).mem = s.mem := rfl
@[simp] theorem load_pc : (s.load p).pc = 0 := rfl
@[simp] theorem load_program : (s.load p).program = p := rfl
@[simp] theorem load_latch : (s.load p).latch = none := rfl
@[simp] theorem load_readReg : (s.load p).readReg i = s.readReg i := rfl
@[simp] theorem load_readMem : (s.load p).readMem a = s.readMem a := rfl

/-! ### Placing a table word -/

@[simp] theorem placeWord_config : (s.placeWord n k).config = s.config := rfl
@[simp] theorem placeWord_regs : (s.placeWord n k).regs = s.regs := rfl
@[simp] theorem placeWord_mem : (s.placeWord n k).mem = s.mem := rfl
@[simp] theorem placeWord_pc : (s.placeWord n k).pc = s.pc := rfl
@[simp] theorem placeWord_program :
    (s.placeWord n k).program = placeBytes s.program s.pc (leBytes 6 (k % 2 ^ n)) := rfl
@[simp] theorem placeWord_latch : (s.placeWord n k).latch = none := rfl

end Sys2Proof.Machine
end

