-- ==== Sys2Proof/Laws/Cells.lean ====
section
/-!
SUPPORT. The laws of the cell arrays: reads after writes, and that every operation over registers and memory keeps the canonical
form.
-/

namespace Sys2Proof.Machine

theorem cells_wfBetween_cons {lo hi k : Nat} {v : Int} {c : Cells} :
    Cells.wfBetween lo hi ((k, v) :: c) = true ↔
      lo ≤ k ∧ k < hi ∧ v ≠ 0 ∧ Cells.wfBetween (k + 1) hi c = true := by
  simp [Cells.wfBetween, and_assoc]

theorem cells_wfBetween_lower {lo lo' hi : Nat} {c : Cells} (h : Cells.wfBetween lo hi c = true) (hl : lo' ≤ lo) :
    Cells.wfBetween lo' hi c = true := by
  cases c with
  | nil => rfl
  | cons e c =>
    obtain ⟨h1, h2⟩ := cells_wfBetween_cons.1 h
    exact cells_wfBetween_cons.2 ⟨by omega, h2⟩

/-- Below its lower bound an array reads 0. -/
theorem cells_read_below {lo hi a : Nat} {c : Cells} (h : Cells.wfBetween lo hi c = true) (ha : a < lo) :
    Cells.read c a = 0 := by
  induction c generalizing lo with
  | nil => rfl
  | cons e c ih =>
    obtain ⟨h1, -, -, h4⟩ := cells_wfBetween_cons.1 h
    have hne : a ≠ e.1 := by omega
    simpa [Cells.read, hne] using ih h4 (by omega)

/-- At or above its size an array reads 0. -/
theorem cells_read_above {lo hi a : Nat} {c : Cells} (h : Cells.wfBetween lo hi c = true) (ha : hi ≤ a) :
    Cells.read c a = 0 := by
  induction c generalizing lo with
  | nil => rfl
  | cons e c ih =>
    obtain ⟨-, h2, -, h4⟩ := cells_wfBetween_cons.1 h
    have hne : a ≠ e.1 := by omega
    simpa [Cells.read, hne] using ih h4

/-- A cell reads back what was written to it. -/
theorem cells_read_write_same {lo hi a : Nat} {v : Int} {c : Cells} (h : Cells.wfBetween lo hi c = true) :
    Cells.read (Cells.write c a v) a = v := by
  induction c generalizing lo with
  | nil => by_cases hv : v = 0 <;> simp [Cells.write, Cells.read, hv]
  | cons e c ih =>
    obtain ⟨-, -, -, h4⟩ := cells_wfBetween_cons.1 h
    rcases lt_trichotomy a e.1 with ha | ha | ha
    · by_cases hv : v = 0
      · have hr := cells_read_below h4 (show a < e.1 + 1 by omega)
        simp [Cells.write, Cells.read, ha, hv, ha.ne, hr]
      · simp [Cells.write, Cells.read, ha, hv]
    · by_cases hv : v = 0
      · have hr := cells_read_below h4 (show a < e.1 + 1 by omega)
        simp only [Cells.write, hv, ← ha, lt_irrefl, if_false, if_true]
        exact hr
      · simp [Cells.write, Cells.read, ha, hv]
    · simp [Cells.write, Cells.read, ha.ne', ih h4, show ¬ a < e.1 by omega]

/-- A write leaves every other cell alone. -/
theorem cells_read_write_other {a b : Nat} {v : Int} (c : Cells) (hb : b ≠ a) :
    Cells.read (Cells.write c a v) b = Cells.read c b := by
  induction c with
  | nil => by_cases hv : v = 0 <;> simp [Cells.write, Cells.read, hv, hb]
  | cons e c ih =>
    simp only [Cells.write]
    split_ifs with h1 h2 h3 h4
    · rfl
    · simp [Cells.read, hb]
    · simp [Cells.read, ← h3, hb]
    · simp [Cells.read, ← h3, hb]
    · simp [Cells.read, ih]

/-- A write inside the bounds keeps the canonical form. -/
theorem cells_wf_write {lo hi a : Nat} {v : Int} {c : Cells} (h : Cells.wfBetween lo hi c = true) (hl : lo ≤ a)
    (ha : a < hi) : Cells.wfBetween lo hi (Cells.write c a v) = true := by
  induction c generalizing lo with
  | nil => by_cases hv : v = 0 <;> simp [Cells.write, Cells.wfBetween, hv, hl, ha]
  | cons e c ih =>
    obtain ⟨h1, h2, h3, h4⟩ := cells_wfBetween_cons.1 h
    simp only [Cells.write]
    split_ifs with g1 g2 g3 g4
    · exact h
    · exact cells_wfBetween_cons.2 ⟨hl, ha, g2, cells_wfBetween_cons.2 ⟨by omega, h2, h3, h4⟩⟩
    · exact cells_wfBetween_lower h4 (by omega)
    · exact cells_wfBetween_cons.2 ⟨hl, ha, g4, g3 ▸ h4⟩
    · exact cells_wfBetween_cons.2 ⟨h1, h2, h3, ih h4 (by omega)⟩

/-- Two canonical arrays that read the same everywhere are equal data. -/
theorem cells_ext {lo hi : Nat} {c d : Cells} (hc : Cells.wfBetween lo hi c = true)
    (hd : Cells.wfBetween lo hi d = true) (h : ∀ a, Cells.read c a = Cells.read d a) : c = d := by
  induction c generalizing lo d with
  | nil =>
    cases d with
    | nil => rfl
    | cons e d =>
      obtain ⟨-, -, h3, -⟩ := cells_wfBetween_cons.1 hd
      exact absurd (h e.1).symm (by simpa [Cells.read] using h3)
  | cons e c ih =>
    obtain ⟨c1, c2, c3, c4⟩ := cells_wfBetween_cons.1 hc
    cases d with
    | nil => exact absurd (h e.1) (by simpa [Cells.read] using c3)
    | cons e' d =>
      obtain ⟨d1, d2, d3, d4⟩ := cells_wfBetween_cons.1 hd
      have hk : e.1 = e'.1 := by
        rcases lt_trichotomy e.1 e'.1 with hlt | heq | hgt
        · have := h e.1
          rw [cells_read_below (cells_wfBetween_cons.2 ⟨Nat.le_refl e'.1, d2, d3, d4⟩) hlt] at this
          exact absurd this (by simpa [Cells.read] using c3)
        · exact heq
        · have := h e'.1
          rw [cells_read_below (cells_wfBetween_cons.2 ⟨Nat.le_refl e.1, c2, c3, c4⟩) hgt] at this
          exact absurd this.symm (by simpa [Cells.read] using d3)
      have hv : e.2 = e'.2 := by simpa [Cells.read, hk] using h e.1
      have hrest : c = d := ih c4 (by rw [hk]; exact d4) fun a => by
        by_cases ha : a = e.1
        · rw [cells_read_below c4 (by omega), cells_read_below d4 (by omega)]
        · have := h a
          simpa [Cells.read, ha, show a ≠ e'.1 by omega] using this
      rw [hrest, Prod.ext hk hv]

/-! ### The registers and the memory -/

theorem readReg_writeReg_same {s : State} {i : Nat} {v : Int} (h : RegFile.wf s.config.regCount s.regs = true) :
    (s.writeReg i v).readReg i = v := cells_read_write_same h

theorem readReg_writeReg_other (s : State) {i r : Nat} {v : Int} (hr : r ≠ i) :
    (s.writeReg i v).readReg r = s.readReg r := cells_read_write_other s.regs hr

theorem readMem_writeMem_same {s : State} {a : Nat} {v : Int} (h : Memory.wf s.config.memSize s.mem = true) :
    (s.writeMem a v).readMem a = v := cells_read_write_same h

theorem readMem_writeMem_other (s : State) {a b : Nat} {v : Int} (hb : b ≠ a) :
    (s.writeMem a v).readMem b = s.readMem b := cells_read_write_other s.mem hb

/-- Writing a register of the file keeps its canonical form. -/
theorem regFile_wf_write {size i : Nat} {v : Int} {x : Cells} (h : RegFile.wf size x = true) (hi : i < size) :
    RegFile.wf size (Cells.write x i v) = true := cells_wf_write h (Nat.zero_le i) hi

/-- Writing a cell of the memory keeps its canonical form. -/
theorem memory_wf_write {size a : Nat} {v : Int} {m : Cells} (h : Memory.wf size m = true) (ha : a < size) :
    Memory.wf size (Cells.write m a v) = true := cells_wf_write h (Nat.zero_le a) ha

theorem reset_memory_wf : Memory.wf State.reset.config.memSize State.reset.mem = true := rfl

theorem reset_regFile_wf : RegFile.wf State.reset.config.regCount State.reset.regs = true := rfl

/-! ### Properties of every cell -/

/-- A write of an admitted value keeps every cell admitted. -/
theorem cells_all_write {p : Int → Bool} {a : Nat} {v : Int} {c : Cells} (h : Cells.all p c = true) (hv : p v = true) :
    Cells.all p (Cells.write c a v) = true := by
  induction c with
  | nil => simp only [Cells.write]; split_ifs <;> simp [Cells.all, hv]
  | cons e c ih =>
    simp only [Cells.all, Bool.and_eq_true] at h
    simp only [Cells.write]
    split_ifs <;> simp [Cells.all, h.1, h.2, hv, ih h.2]

/-- Every cell an array reads is admitted, if 0 is. -/
theorem cells_all_read {p : Int → Bool} {c : Cells} (h : Cells.all p c = true) (h0 : p 0 = true) (a : Nat) :
    p (Cells.read c a) = true := by
  induction c with
  | nil => exact h0
  | cons e c ih =>
    simp only [Cells.all, Bool.and_eq_true] at h
    simp only [Cells.read]
    split_ifs with g
    · exact h.1
    · exact ih h.2

end Sys2Proof.Machine
end

