-- ==== Sys2Proof/Laws/Decode.lean ====
section
/-!
SUPPORT. The small lemmas of the codec: byte strings as integers, the layouts, the opcode map, and what the decoder answers.
-/

namespace Sys2Proof

@[simp] theorem leBytes_length (k n : Nat) : (leBytes k n).length = k := by
  induction k generalizing n with
  | zero => rfl
  | succ k ih => simp [leBytes, ih]

theorem leNat_lt (bytes : List Byte) : leNat bytes < 2 ^ (8 * bytes.length) := by
  induction bytes with
  | nil => simp [leNat]
  | cons b bs ih =>
    have hb : b.toNat < 2 ^ 8 := b.isLt
    have hp : 2 ^ (8 * (bs.length + 1)) = 2 ^ 8 * 2 ^ (8 * bs.length) := by rw [← pow_add]; congr 1; omega
    simp only [leNat, List.length_cons, hp]
    nlinarith

/-- The bytes of an integer give back the integer, less what the bytes cannot hold. -/
theorem leNat_leBytes (k n : Nat) : leNat (leBytes k n) = n % 2 ^ (8 * k) := by
  induction k generalizing n with
  | zero => simp [leBytes, leNat, Nat.mod_one]
  | succ k ih =>
    have hp : 2 ^ (8 * (k + 1)) = 2 ^ 8 * 2 ^ (8 * k) := by rw [← pow_add]; congr 1; omega
    rw [leBytes, leNat, ih, hp, Nat.mod_mul, BitVec.toNat_ofNat]

/-- A byte string is the bytes of its integer. -/
theorem leBytes_leNat (bytes : List Byte) : leBytes bytes.length (leNat bytes) = bytes := by
  induction bytes with
  | nil => rfl
  | cons b bs ih =>
    have h1 : BitVec.ofNat 8 (b.toNat + 2 ^ 8 * leNat bs) = b := by
      apply BitVec.eq_of_toNat_eq
      rw [BitVec.toNat_ofNat, Nat.add_mul_mod_self_left, Nat.mod_eq_of_lt b.isLt]
    have h2 : (b.toNat + 2 ^ 8 * leNat bs) / 2 ^ 8 = leNat bs := by
      have := b.isLt
      omega
    simp only [List.length_cons, leBytes, leNat, h1, h2, ih]

/-- The integer of a joined byte string. -/
theorem leNat_append (a b : List Byte) : leNat (a ++ b) = leNat a + 2 ^ (8 * a.length) * leNat b := by
  induction a with
  | nil => simp [leNat]
  | cons x xs ih =>
    have he : 8 * (xs.length + 1) = 8 + 8 * xs.length := by ring
    rw [List.cons_append, leNat, ih, leNat, List.length_cons, he, pow_add]
    ring

theorem bitField_lt (n lo w : Nat) : bitField n lo w < 2 ^ w := Nat.mod_lt _ (Nat.two_pow_pos w)

@[simp] theorem encodeFields_length (o : Opcode) (a b c : Int) : (encodeFields o a b c).length = o.width :=
  leBytes_length _ _

@[simp] theorem opcode_instr (o : Opcode) (b c : Nat) : (o.instr b c).opcode = o := by cases o <;> rfl
@[simp] theorem fieldB_instr (o : Opcode) (b c : Nat) : (o.instr b c).fieldB = b := by cases o <;> rfl
@[simp] theorem fieldC_instr (o : Opcode) (b c : Nat) : (o.instr b c).fieldC = c := by cases o <;> rfl
@[simp] theorem instr_of_fields (i : Instr) : i.opcode.instr i.fieldB i.fieldC = i := by cases i <;> rfl

theorem width_pos (o : Opcode) : 0 < o.width := by cases o <;> decide

/-- An instruction is well-formed exactly when its fields are within the widths of its layout. -/
theorem wf_iff_layout (i : Instr) :
    i.wf = true ↔ i.fieldB < 2 ^ i.opcode.layout.bWidth ∧ i.fieldC < 2 ^ i.opcode.layout.cWidth := by
  cases i <;> simp [Instr.wf, Instr.fieldB, Instr.fieldC, Instr.opcode, Opcode.layout]

theorem opcode_of_byte {m : OpcodeMap} (h : m.distinct = true) (o : Opcode) : m.opcode? (m.byte o) = some o := by
  simp only [OpcodeMap.distinct, decide_eq_true_eq, List.nodup_cons, List.mem_cons, List.not_mem_nil, or_false,
    not_or] at h
  obtain ⟨⟨h1, h2, h3⟩, ⟨h4, h5⟩, h6, -⟩ := h
  cases o <;> simp only [OpcodeMap.opcode?, OpcodeMap.byte] <;> split_ifs <;> simp_all

theorem byte_of_opcode {m : OpcodeMap} {b : Byte} {o : Opcode} (h : m.opcode? b = some o) : m.byte o = b := by
  unfold OpcodeMap.opcode? at h
  split_ifs at h with h1 h2 h3 h4 <;> cases h <;> simp_all [OpcodeMap.byte]

/-- What the decoder answers with an instruction: its opcode is the first byte's, the bytes are there, its fields are unpacked
from them, and the rest are the bytes after them. -/
theorem decode_instr_iff {m : OpcodeMap} {bytes rest : List Byte} {i : Instr} :
    decode m bytes = .instr i rest ↔
      ∃ op tail, bytes = op :: tail ∧ m.opcode? op = some i.opcode ∧ i.opcode.width ≤ bytes.length ∧
        i.fieldB = (decodeFields i.opcode (bytes.take i.opcode.width)).2.1 ∧
        i.fieldC = (decodeFields i.opcode (bytes.take i.opcode.width)).2.2 ∧ rest = bytes.drop i.opcode.width := by
  cases bytes with
  | nil => simp [decode]
  | cons op tail =>
    constructor
    · intro h
      simp only [decode] at h
      cases ho : m.opcode? op with
      | none => simp [ho] at h
      | some o =>
        simp only [ho] at h
        split_ifs at h with hl
        simp only [Decoded.instr.injEq] at h
        obtain ⟨rfl, rfl⟩ := h
        exact ⟨op, tail, rfl, by simpa using ho, by simpa using hl, by simp, by simp, by simp⟩
    · rintro ⟨op', tail', heq, ho, hl, hb, hc, rfl⟩
      obtain ⟨rfl, rfl⟩ : op = op' ∧ tail = tail' := by simpa using heq
      simp only [decode, ho, if_neg (Nat.not_lt.2 hl), ← hb, ← hc, instr_of_fields]

/-- The decoder sees the end of the program exactly when there is no byte. -/
theorem decode_endOfProgram_iff {m : OpcodeMap} {bytes : List Byte} : decode m bytes = .endOfProgram ↔ bytes = [] := by
  cases bytes with
  | nil => simp [decode]
  | cons op tail =>
    simp only [decode, reduceCtorEq, iff_false]
    split
    · simp
    · split_ifs <;> simp

end Sys2Proof
end

