-- ==== Sys2Proof/Laws/Operands.lean ====
section
/-!
SUPPORT. What the operand checks and the commit of an instruction can do, each said once.
-/

namespace Sys2Proof.Machine

theorem regCheck_of_lt {o : Opcode} {i : Nat} {s : State} (h : i < s.config.regCount) : regCheck o i s = none :=
  if_pos h

theorem regCheck_of_ge {o : Opcode} {i : Nat} {s : State} (h : s.config.regCount ≤ i) :
    regCheck o i s = some (.indexOutOfRange s.pc (s.opByte o) .register i) := if_neg (Nat.not_lt.2 h)

theorem regCheck_eq_none {o : Opcode} {i : Nat} {s : State} : regCheck o i s = none ↔ i < s.config.regCount := by
  simp [regCheck]

theorem memCheck_of_lt {o : Opcode} {a : Nat} {s : State} (h : a < s.config.memSize) : memCheck o a s = none :=
  if_pos h

theorem memCheck_of_ge {o : Opcode} {a : Nat} {s : State} (h : s.config.memSize ≤ a) :
    memCheck o a s = some (.indexOutOfRange s.pc (s.opByte o) .memory a) := if_neg (Nat.not_lt.2 h)

theorem memCheck_eq_none {o : Opcode} {a : Nat} {s : State} : memCheck o a s = none ↔ a < s.config.memSize := by
  simp [memCheck]

theorem signCheck_of_nonneg {o : Opcode} {i : Nat} {s : State} (h : 0 ≤ s.readReg i) : signCheck o i s = none :=
  if_pos h

theorem signCheck_of_neg {o : Opcode} {i : Nat} {s : State} (h : s.readReg i < 0) :
    signCheck o i s = some (.invalidOperand s.pc (s.opByte o) i (s.readReg i)) := if_neg (not_le.2 h)

theorem signCheck_eq_none {o : Opcode} {i : Nat} {s : State} : signCheck o i s = none ↔ 0 ≤ s.readReg i := by
  simp [signCheck]

/-- No fault comes first exactly when every check passes. -/
theorem firstFault_eq_none {cs : List (Option Fault)} : firstFault cs = none ↔ ∀ c ∈ cs, c = none := by
  induction cs with
  | nil => simp [firstFault]
  | cons c cs ih => cases c <;> simp [firstFault, ih]

/-- A fault that comes first is one of the checks' faults. -/
theorem firstFault_mem {cs : List (Option Fault)} {f : Fault} (h : firstFault cs = some f) : some f ∈ cs := by
  induction cs with
  | nil => simp [firstFault] at h
  | cons c cs ih =>
    cases c with
    | none => exact List.mem_cons_of_mem _ (ih h)
    | some g =>
      obtain rfl : g = f := by simpa [firstFault] using h
      exact List.mem_cons_self

/-- What a commit answers: always a next state, either the latched fault or the state committed. -/
theorem commit_cases (cs : List (Option Fault)) (s t : State) :
    (∃ f, firstFault cs = some f ∧ commit cs s t = .next (s.latched f)) ∨
      (firstFault cs = none ∧ commit cs s t = .next t) := by
  unfold commit raise
  cases h : firstFault cs with
  | none => exact .inr ⟨rfl, rfl⟩
  | some f => exact .inl ⟨f, rfl, rfl⟩

theorem commit_of_pass {cs : List (Option Fault)} {s t : State} (h : ∀ c ∈ cs, c = none) : commit cs s t = .next t := by
  simp [commit, firstFault_eq_none.2 h]

/-! Every fault an operand check raises records the pc of its instruction. -/

theorem regCheck_pc {o : Opcode} {i : Nat} {s : State} {f : Fault} (h : some f = regCheck o i s) : f.pc = s.pc := by
  unfold regCheck at h
  split_ifs at h
  cases h
  rfl

theorem memCheck_pc {o : Opcode} {a : Nat} {s : State} {f : Fault} (h : some f = memCheck o a s) : f.pc = s.pc := by
  unfold memCheck at h
  split_ifs at h
  cases h
  rfl

theorem signCheck_pc {o : Opcode} {i : Nat} {s : State} {f : Fault} (h : some f = signCheck o i s) : f.pc = s.pc := by
  unfold signCheck at h
  split_ifs at h
  cases h
  rfl

end Sys2Proof.Machine
end

