-- ==== Sys2Proof/Laws/Step.lean ====
section
/-!
SUPPORT. What an instruction and a step can do, said once: inversion lemmas that invariants and frames are derived from.
-/

namespace Sys2Proof.Machine

/-- The state an instruction goes on to when all its checks pass (40_decode_dispatch.md R97). -/
def effect (i : Instr) (s : State) : State :=
  match i with
  | .loadConst b c => (s.writeReg c b).advance 6
  | .loadMem b c => (s.writeReg c (s.readMem b)).advance 6
  | .storeMem b c => (s.writeMem c (s.readReg b)).advance 6
  | .sqrt b c => (s.writeReg b (isqrt (s.readReg c).toNat)).advance 3

/-- The checks of an instruction, in order (60_exceptions.md R147). -/
def checksOf (i : Instr) (s : State) : List (Option Fault) :=
  match i with
  | .loadConst _ c => [regCheck .loadConst c s]
  | .loadMem b c => [memCheck .loadMem b s, regCheck .loadMem c s]
  | .storeMem b c => [regCheck .storeMem b s, memCheck .storeMem c s]
  | .sqrt b c => [regCheck .sqrt c s, signCheck .sqrt c s, regCheck .sqrt b s]

/-- Every instruction is one commit of its checks and its effect. -/
theorem exec_eq_commit (i : Instr) (s : State) : exec i s = commit (checksOf i s) s (effect i s) := by
  cases i <;> rfl

/-- What an instruction answers: the latched fault of its first failing check, or its effect with every check passed. -/
theorem exec_cases (i : Instr) (s : State) :
    (∃ f, firstFault (checksOf i s) = some f ∧ exec i s = .next (s.latched f)) ∨
      (firstFault (checksOf i s) = none ∧ exec i s = .next (effect i s)) := by
  rw [exec_eq_commit]
  exact commit_cases _ _ _

/-- A fault of an instruction's checks records the pc. -/
theorem checksOf_pc {i : Instr} {s : State} {f : Fault} (h : firstFault (checksOf i s) = some f) : f.pc = s.pc := by
  have hm := firstFault_mem h
  cases i with
  | loadConst b c => exact regCheck_pc (by simpa [checksOf] using hm)
  | loadMem b c =>
    rcases (by simpa [checksOf] using hm : some f = memCheck .loadMem b s ∨ some f = regCheck .loadMem c s) with h | h
    · exact memCheck_pc h
    · exact regCheck_pc h
  | storeMem b c =>
    rcases (by simpa [checksOf] using hm : some f = regCheck .storeMem b s ∨ some f = memCheck .storeMem c s) with h | h
    · exact regCheck_pc h
    · exact memCheck_pc h
  | sqrt b c =>
    rcases (by simpa [checksOf] using hm :
      some f = regCheck .sqrt c s ∨ some f = signCheck .sqrt c s ∨ some f = regCheck .sqrt b s) with h | h | h
    · exact regCheck_pc h
    · exact signCheck_pc h
    · exact regCheck_pc h

@[simp] theorem effect_config (i : Instr) (s : State) : (effect i s).config = s.config := by cases i <;> rfl
@[simp] theorem effect_program (i : Instr) (s : State) : (effect i s).program = s.program := by cases i <;> rfl
@[simp] theorem effect_latch (i : Instr) (s : State) : (effect i s).latch = s.latch := by cases i <;> rfl
@[simp] theorem effect_pc (i : Instr) (s : State) : (effect i s).pc = s.pc + i.width := by cases i <;> rfl

/-- The fetch of a core with no fault latched. -/
theorem fetch_of_clear {s : State} (h : s.latch = none) :
    fetch s = classify s.pc (decode s.config.opcodes s.fetchBytes) := by
  simp [fetch, h]

/-- A fault of the fetch records the pc. -/
theorem classify_raises_pc {pc : Nat} {d : Decoded} {f : Fault} (h : classify pc d = .raises f) : f.pc = pc := by
  cases d <;> simp only [classify] at h <;> cases h <;> rfl

/-- What a step answers: a latched fault stops it; a halted core stays; else no fault was latched, and a fault is latched or
the decoded instruction has its effect. -/
theorem step_cases (s : State) :
    (∃ f, s.latch = some f ∧ step s = .fault f) ∨
    (s.latch = none ∧ decode s.config.opcodes s.fetchBytes = .endOfProgram ∧ step s = .next s) ∨
    (∃ f, s.latch = none ∧ f.pc = s.pc ∧ step s = .next (s.latched f)) ∨
    (∃ i rest, s.latch = none ∧ decode s.config.opcodes s.fetchBytes = .instr i rest ∧
      firstFault (checksOf i s) = none ∧ step s = .next (effect i s)) := by
  cases hl : s.latch with
  | some f => exact .inl ⟨f, rfl, by simp [step, fetch, hl]⟩
  | none =>
    refine .inr ?_
    cases hd : decode s.config.opcodes s.fetchBytes with
    | endOfProgram => exact .inl ⟨rfl, rfl, by simp [step, fetch_of_clear hl, hd, classify]⟩
    | unknownOpcode op =>
      exact .inr (.inl ⟨.unknownOpcode s.pc op, rfl, rfl, by simp [step, fetch_of_clear hl, hd, classify, raise]⟩)
    | truncated op n =>
      exact .inr (.inl ⟨.truncatedInstruction s.pc op n, rfl, rfl,
        by simp [step, fetch_of_clear hl, hd, classify, raise]⟩)
    | instr i rest =>
      have hs : step s = exec i s := by simp [step, fetch_of_clear hl, hd, classify]
      rcases exec_cases i s with ⟨f, hf, he⟩ | ⟨hf, he⟩
      · exact .inr (.inl ⟨f, rfl, checksOf_pc hf, hs.trans he⟩)
      · exact .inr (.inr ⟨i, rest, rfl, rfl, hf, hs.trans he⟩)

end Sys2Proof.Machine
end

