-- ==== Sys2Proof/Laws/Host.lean ====
section
/-!
SUPPORT. The program bytes at pc, the slices of an instruction integer, and what the host sees of one step.
-/

namespace Sys2Proof.Machine

/-- A slice is a field: the two spellings of 00_scope.md R9 and 30_encoding.md R61. -/
theorem bits_eq_bitField {n hi lo w : Nat} (h : hi - lo + 1 = w) : bits n hi lo = bitField n lo w := by
  subst h
  simp only [bits, bitField, Nat.shiftRight_eq_div_pow]

/-- The little-endian integer of the `w` bytes at pc is the sum `LE(pc, w)`. -/
theorem leNat_take_eq_le (s : State) (w : Nat) (h : s.pc + w ≤ s.plen) :
    leNat (s.fetchBytes.take w) = s.le s.pc w := by
  unfold State.plen at h
  induction w with
  | zero => simp [leNat, State.le]
  | succ w ih =>
    have hw : w < s.fetchBytes.length := by simp only [State.fetchBytes, List.length_drop]; omega
    have hl : (s.fetchBytes.take w).length = w := List.length_take_of_le (by omega)
    have hb : s.byteAt (s.pc + w) = s.program[s.pc + w] := List.getD_eq_getElem _ _ (by omega)
    rw [← List.take_append_getElem hw, leNat_append, ih (by omega), hl, State.le]
    simp [leNat, hb, State.fetchBytes]

/-- Before the end of the program the first byte fetched is `P[pc]`. -/
theorem fetchBytes_cons (s : State) (h : s.pc < s.plen) : ∃ tail, s.fetchBytes = s.byteAt s.pc :: tail := by
  unfold State.plen at h
  refine ⟨s.program.drop (s.pc + 1), ?_⟩
  rw [State.fetchBytes, List.drop_eq_getElem_cons h, State.byteAt, List.getD_eq_getElem _ _ h]

theorem three_le_width (i : Instr) : 3 ≤ i.width := by
  cases i <;> simp [Instr.width, Instr.opcode, Opcode.width, Opcode.layout]

/-- A decoded instruction lies wholly inside the program. -/
theorem decoded_inside {s : State} {i : Instr} {rest : List Byte}
    (h : decode s.config.opcodes s.fetchBytes = .instr i rest) : s.pc + i.width ≤ s.plen := by
  obtain ⟨op, tail, -, -, hl, -⟩ := decode_instr_iff.1 h
  have hw := three_le_width i
  simp only [State.fetchBytes, List.length_drop] at hl
  unfold State.plen Instr.width at *
  omega

/-- What the host sees of one step: the latched fault and no change; halted and no change; a fault raised and latched; or an
instruction's effect. -/
theorem hostStep_cases (s : State) :
    (∃ f, s.latch = some f ∧ hostStep s = some (.fault f, s)) ∨
    (s.latch = none ∧ s.plen ≤ s.pc ∧ hostStep s = some (.halted, s)) ∨
    (∃ f, s.latch = none ∧ f.pc = s.pc ∧ hostStep s = some (.fault f, s.latched f)) ∨
    (∃ i rest, s.latch = none ∧ decode s.config.opcodes s.fetchBytes = .instr i rest ∧
      firstFault (checksOf i s) = none ∧ step s = .next (effect i s) ∧
      hostStep s = some (.continuing, effect i s)) := by
  rcases step_cases s with ⟨f, h1, h2⟩ | ⟨h1, hd, h2⟩ | ⟨f, h1, hp, h2⟩ | ⟨i, rest, h1, hd, hf, h2⟩
  · exact .inl ⟨f, h1, by simp [hostStep, h2]⟩
  · have hp : s.plen ≤ s.pc := by simpa [State.fetchBytes, State.plen] using decode_endOfProgram_iff.1 hd
    exact .inr (.inl ⟨h1, hp, by simp [hostStep, h2, signalOf, h1, hp]⟩)
  · exact .inr (.inr (.inl ⟨f, h1, hp, by simp [hostStep, h2, signalOf]⟩))
  · have hi := decoded_inside hd
    have hw := three_le_width i
    have hlt : ¬ s.plen ≤ s.pc := by omega
    exact .inr (.inr (.inr ⟨i, rest, h1, hd, hf, h2, by simp [hostStep, h2, signalOf, h1, hlt]⟩))

/-- The parts of a well-formed state. -/
theorem wf_parts {s : State} (h : s.wf = true) :
    s.config.wf = true ∧ RegFile.wf s.config.regCount s.regs = true ∧ Memory.wf s.config.memSize s.mem = true ∧
      Cells.all (fits s.config) s.regs = true ∧ Cells.all (fits s.config) s.mem = true := by
  simp only [State.wf, Bool.and_eq_true] at h
  exact ⟨h.1.1.1.1.1, h.1.1.1.1.2, h.1.1.1.2, h.1.1.2, h.1.2⟩

end Sys2Proof.Machine
end

