-- ==== Sys2Proof/Laws/PerInstr.lean ====
section
/-!
SUPPORT. Statements about every instruction, one lemma per constructor. FirstByte: the first byte of an instruction's encoding is
its opcode byte, whatever the opcode map (spec/30_encoding.md R67).
-/

namespace Sys2Proof.Laws.FirstByte

/-- The encoding begins with the opcode byte. -/
def Statement (i : Instr) : Prop := ∀ m : OpcodeMap, (encode m i).head? = some (m.byte i.opcode)

/-- The lowest byte of a packed instruction is field A, for a layout whose other fields start at bit 8 or above. -/
theorem head_encodeFields (o : Opcode) (a : Byte) (b c : Int) : (encodeFields o a.toNat b c).head? = some a := by
  have ha : ((a.toNat : Int) % 2 ^ 8).toNat = a.toNat := by
    have := a.isLt
    omega
  cases o <;>
    simp only [encodeFields, Opcode.width, Opcode.layout, leBytes, packFields, List.head?_cons, ha, Option.some.injEq] <;>
    apply BitVec.eq_of_toNat_eq <;> have := a.isLt <;> simp only [BitVec.toNat_ofNat] <;> omega

theorem loadConst (b c : Nat) : Statement (.loadConst b c) := fun _ => head_encodeFields .loadConst _ _ _
theorem loadMem (b c : Nat) : Statement (.loadMem b c) := fun _ => head_encodeFields .loadMem _ _ _
theorem storeMem (b c : Nat) : Statement (.storeMem b c) := fun _ => head_encodeFields .storeMem _ _ _
theorem sqrt (b c : Nat) : Statement (.sqrt b c) := fun _ => head_encodeFields .sqrt _ _ _

end Sys2Proof.Laws.FirstByte
end

