-- ==== Sys2Proof/Tests/Slice0.lean ====
section
/-!
SUPPORT. The model's own tests, each on one decode or one step, their expected results from spec/95_test_vectors.md (its ids in
the comments) or worked out by hand from the rules; and, for every statement with hypotheses, a theorem that shows a state and
operands meeting all of them.
-/

namespace Sys2Proof.Tests

open Sys2Proof.Machine

/-- A core of the default parameters with a program and start cells. -/
def boot (p : List Byte) (x m : Cells) : State := { State.reset with program := p, regs := x, mem := m }

/-- The same core with another number of registers. -/
def bootSmall (regCount : Nat) (p : List Byte) (x m : Cells) : State :=
  { boot p x m with config := { defaultConfig with regCount := regCount } }

/-- The next state an outcome holds. -/
def after : Result State → Option State
  | .next t => some t
  | .fault _ => none
  | .refused _ => none

/-- A core with a fault latched. -/
def faulted : State := { boot [0xFF] [] [] with latch := some (.unknownOpcode 0 0xFF) }

/-! ### WellFormed refuses, check by check -/

theorem test_wf_loadConst_b : Instr.wf (.loadConst (2 ^ 27) 0) = false := by decide
theorem test_wf_loadConst_c : Instr.wf (.loadConst 0 (2 ^ 7)) = false := by decide
theorem test_wf_loadMem_b : Instr.wf (.loadMem (2 ^ 26) 0) = false := by decide
theorem test_wf_loadMem_c : Instr.wf (.loadMem 0 (2 ^ 7)) = false := by decide
theorem test_wf_storeMem_b : Instr.wf (.storeMem (2 ^ 7) 0) = false := by decide
theorem test_wf_storeMem_c : Instr.wf (.storeMem 0 (2 ^ 26)) = false := by decide
theorem test_wf_sqrt_b : Instr.wf (.sqrt (2 ^ 7) 0) = false := by decide
theorem test_wf_sqrt_c : Instr.wf (.sqrt 0 (2 ^ 7)) = false := by decide
theorem test_wf_opcodes : OpcodeMap.distinct ⟨1, 2, 3, 1⟩ = false := by decide
theorem test_wf_regCount : Config.wf { defaultConfig with regCount := 0 } = false := by decide
theorem test_wf_cellBits : Config.wf { defaultConfig with cellBits := some 27 } = false := by decide

/-! ### Decoding, from the words of 95_test_vectors.md -/

-- E2, with the fields written bit by bit from R63: 7 ones of C above 27 ones of B above 01111000
theorem test_decode_loadConst_max :
    decodeTableWord 48 0b000000111111111111111111111111111111111101111000 = some (.loadConst 134217727 127) := by decide

-- R64: C = 0110010 (50), B = 667, opcode 10000001 (W6)
theorem test_decode_loadMem :
    decodeTableWord 48 0b000000001100100000000000000000101001101110000001 = some (.loadMem 667 50) := by decide

-- R65: C = 633, B = 1101101 (109), opcode 01111011 (W7)
theorem test_decode_storeMem :
    decodeTableWord 48 0b000000000000000000000001001111001110110101111011 = some (.storeMem 109 633) := by decide

-- R66: C = 1000111 (71), B = 1110001 (113), opcode 00110101 (W8)
theorem test_decode_sqrt : decodeTableWord 24 0b001000111111000100110101 = some (.sqrt 113 71) := by decide

-- E14, E16, E18, E20: every unused bit set
theorem test_decode_unused_bits :
    decode OpcodeMap.default [0x78, 0xFF, 0xFF, 0xFF, 0xFF, 0xFF] = .instr (.loadConst 134217727 127) [] ∧
    decode OpcodeMap.default [0x81, 0xFF, 0xFF, 0xFF, 0xFF, 0xFF] = .instr (.loadMem 67108863 127) [] ∧
    decode OpcodeMap.default [0x7B, 0xFF, 0xFF, 0xFF, 0xFF, 0xFF] = .instr (.storeMem 127 67108863) [] ∧
    decode OpcodeMap.default [0x35, 0xFF, 0xFF] = .instr (.sqrt 127 127) [] := by decide

-- X5 (a neighbour of a legal opcode), X7, and X10: the opcode is checked before the length
theorem test_decode_rejects :
    decode OpcodeMap.default [0x79, 0, 0, 0, 0, 0] = .unknownOpcode 0x79 ∧
    decode OpcodeMap.default [0x35, 0] = .truncated 0x35 2 ∧
    decode OpcodeMap.default [0xFF] = .unknownOpcode 0xFF ∧ decode OpcodeMap.default [] = .endOfProgram := by decide

-- E4, E8, E10, E13: oversized and negative fields wrap
theorem test_encode_wraps :
    encodeFields .loadConst 0x78 (-1) 5 = [0x78, 0xFF, 0xFF, 0xFF, 0x2F, 0x00] ∧
    encodeFields .loadMem 0x81 67108864 1 = [0x81, 0x00, 0x00, 0x00, 0x04, 0x00] ∧
    encodeFields .storeMem 0x7B 128 5 = [0x7B, 0x80, 0x02, 0x00, 0x00, 0x00] ∧
    encodeFields .sqrt 0x35 128 129 = [0x35, 0x80, 0x00] := by decide

-- P3 and P1: two lines of assembly, with a trailing comma and a blank line
theorem test_assemble :
    assemble OpcodeMap.default "LOAD_CONST -1, r5\n\nSQRT r6, r5".toList =
      .ok [0x78, 0xFF, 0xFF, 0xFF, 0x2F, 0x00, 0x35, 0x86, 0x02] := by decide

-- R82: an unknown mnemonic leaves no partial program
theorem test_assemble_unknown :
    assemble OpcodeMap.default "SQRT r1, r2\nADD r1, r2".toList = .unknownInstruction := by decide

/-! ### One step -/

-- LC1
theorem test_step_loadConst :
    after (step (boot [0x78, 0xEA, 0x00, 0x00, 0xA0, 0x02] [] [])) =
      some { boot [0x78, 0xEA, 0x00, 0x00, 0xA0, 0x02] [(84, 234)] [] with pc := 6 } := by decide

-- LC5
theorem test_step_loadConst_no_register :
    (after (step (bootSmall 64 [0x78, 0x05, 0x00, 0x00, 0x20, 0x03] [] []))).map State.latch =
      some (some (.indexOutOfRange 0 0x78 .register 100)) := by decide

-- LM2: the sign is kept, at the last cell and the last nameable register
theorem test_step_loadMem :
    (after (step (boot [0x81, 0xFF, 0x07, 0x00, 0xFC, 0x01] [] [(2047, -5)]))).map (fun t => (t.readReg 127, t.pc)) =
      some (-5, 6) := by decide

-- LM3: the first address past the memory
theorem test_step_loadMem_past_memory :
    (after (step (boot [0x81, 0x00, 0x08, 0x00, 0x0C, 0x00] [] []))).map (fun t => (t.latch, t.pc)) =
      some (some (.indexOutOfRange 0 0x81 .memory 2048), 0) := by decide

-- SM1
theorem test_step_storeMem :
    (after (step (boot [0x7B, 0xED, 0x3C, 0x01, 0x00, 0x00] [(109, 777)] []))).map (fun t => (t.mem, t.regs, t.pc)) =
      some ([(633, 777)], [(109, 777)], 6) := by decide

-- SM4, with every unused bit set
theorem test_step_storeMem_past_memory :
    (after (step (boot [0x7B, 0xFF, 0xFF, 0xFF, 0xFF, 0xFF] [(127, 42)] []))).map (fun t => (t.latch, t.mem)) =
      some (some (.indexOutOfRange 0 0x7B .memory 67108863), []) := by decide

-- SQ2: source and destination the same register
theorem test_step_sqrt_same_register :
    (after (step (boot [0x35, 0x85, 0x02] [(5, 1000)] []))).map (fun t => (t.regs, t.pc)) = some ([(5, 31)], 3) := by
  decide

-- SQ5: the host has put a negative operand there
theorem test_step_sqrt_negative :
    (after (step (boot [0x35, 0x84, 0x01] [(3, -4)] []))).map (fun t => (t.latch, t.readReg 4, t.pc)) =
      some (some (.invalidOperand 0 0x35 3 (-4)), 0, 0) := by decide

-- the table of 95_test_vectors.md section 2.6
theorem test_isqrt :
    [0, 1, 2, 3, 4, 8, 9, 15, 16, 24, 25, 99, 100, 144, 67108864, 134217727, 10 ^ 12, 2 ^ 52 + 1, 4503599761588224].map
      isqrt = [0, 1, 1, 1, 2, 2, 3, 3, 4, 4, 5, 9, 10, 12, 8192, 11585, 1000000, 67108864, 67108864] := by decide +kernel

-- the codes of R141
theorem test_fault_codes :
    [Fault.unknownOpcode 0 0, .truncatedInstruction 0 0 0, .indexOutOfRange 0 0 .memory 0, .invalidOperand 0 0 0 0].map
      Fault.code = [1, 2, 3, 4] := by decide

-- X9
theorem test_step_truncated :
    (after (step (boot [0x78, 0x01, 0x02, 0x03, 0x04] [] []))).map State.latch =
      some (some (.truncatedInstruction 0 0x78 5)) := by decide

-- F4: a step before any load halts
theorem test_power_on_halts : hostStep State.reset = some (.halted, State.reset) := by decide

-- F2 and F3: a latched fault stays until load, which keeps the cells
theorem test_load_clears_latch :
    hostStep faulted = some (.fault (.unknownOpcode 0 0xFF), faulted) ∧
    (({ faulted with regs := [(1, 7)] } : State).load [0x35]).latch = none ∧
    (({ faulted with regs := [(1, 7)] } : State).load [0x35]).readReg 1 = 7 := by decide

-- R160, R162: the host reaches register 200, and no register 256
theorem test_host_access :
    (hostApply (.writeReg 200 (-9)) State.reset).2.readReg 200 = -9 ∧
    hostApply (.writeReg 256 1) State.reset = (.refused, State.reset) ∧
    hostApply (.readMem (-1)) State.reset = (.refused, State.reset) := by decide

-- the table word of SQRT r113, r71 runs as the first instruction after reset
theorem test_withFetchWord : (after (step (State.reset.withFetchWord 24 0x23F135))).map State.pc = some 3 := by decide

/-! ### Witnesses: every statement's hypotheses are met -/

theorem witness_RoundTripLaw :
    (255 < 2 ^ 8 ∧ 134217727 < 2 ^ Opcode.loadConst.layout.bWidth ∧ 127 < 2 ^ Opcode.loadConst.layout.cWidth) ∧
    (67108863 < 2 ^ Opcode.loadMem.layout.bWidth ∧ 127 < 2 ^ Opcode.loadMem.layout.cWidth) ∧
    (127 < 2 ^ Opcode.storeMem.layout.bWidth ∧ 67108863 < 2 ^ Opcode.storeMem.layout.cWidth) ∧
    (127 < 2 ^ Opcode.sqrt.layout.bWidth ∧ 127 < 2 ^ Opcode.sqrt.layout.cWidth) := by decide

-- the top byte of the longest and of the shortest instruction
theorem witness_EncodeMasksShiftsAndWritesLittleEndian :
    5 < 6 ∧ (encodeFields .loadConst 0x78 (-1) (-1)).getD 5 0 = 0x03 ∧
    2 < 3 ∧ (encodeFields .sqrt 0x35 (-1) (-1)).getD 2 0 = 0x3F := by decide

theorem witness_DecodeOfEncodeIsTheInstruction :
    OpcodeMap.default.distinct = true ∧ Instr.wf (.loadConst 134217727 127) = true ∧
      Instr.wf (.storeMem 127 67108863) = true := by decide

theorem witness_EncodeOfDecodeClearsUnusedBits :
    decode OpcodeMap.default [0x35, 0xFF, 0xFF, 0x78] = .instr (.sqrt 127 127) [0x78] := by decide

theorem witness_UnusedBitsAreIgnored :
    OpcodeMap.default.opcode? 0x35 = some .sqrt ∧ ([0x35, 0x85, 0x02] : List Byte).length = Opcode.sqrt.width ∧
      leNat [0x35, 0x85, 0x02] % 2 ^ (Opcode.sqrt.layout.cOff + Opcode.sqrt.layout.cWidth) =
        leNat [0x35, 0x85, 0xC2] % 2 ^ (Opcode.sqrt.layout.cOff + Opcode.sqrt.layout.cWidth) := by decide

theorem witness_OpcodeFieldIsFirstByte :
    decode OpcodeMap.default [0x35, 0x85, 0x02] = .instr (.sqrt 5 5) [] := by decide

theorem witness_ProgramImageDisassembles :
    OpcodeMap.default.distinct = true ∧
      ∀ i ∈ [Instr.loadConst 16 10, Instr.sqrt 20 10, Instr.storeMem 20 500], i.wf = true := by decide

theorem witness_AssembledLinesDisassemble : OpcodeMap.default.distinct = true := by decide

theorem witness_StepRunsTheDecodedInstruction :
    (boot [0x35, 0x85, 0x02] [] []).latch = none ∧
      decode (boot [0x35, 0x85, 0x02] [] []).config.opcodes ((boot [0x35, 0x85, 0x02] [] []).program.drop 0) =
        .instr (.sqrt 5 5) [] := by decide

/-- The premises of one row of the dispatch table, for an instruction that ends where the program ends. -/
def rowPremises (s : State) (op : Byte) (w : Nat) : Bool :=
  decide (s.latch = none) && decide (s.config.opcodes = OpcodeMap.default) && decide (s.pc < s.plen)
    && decide (s.byteAt s.pc = op) && decide (s.pc + w = s.plen)

theorem witness_DispatchTable :
    rowPremises (boot [0x78, 0, 0, 0, 0, 0] [] []) 0x78 6 = true ∧
    rowPremises (boot [0x81, 0, 0, 0, 0, 0] [] []) 0x81 6 = true ∧
    rowPremises (boot [0x7B, 0, 0, 0, 0, 0] [] []) 0x7B 6 = true ∧
    rowPremises (boot [0x35, 0, 0] [] []) 0x35 3 = true ∧
    rowPremises (boot [0x79] [] []) 0x79 1 = true := by decide

theorem witness_HaltedStepChangesNothing :
    ({ boot [0x35, 0, 0] [] [] with pc := 3 } : State).latch = none ∧
      ({ boot [0x35, 0, 0] [] [] with pc := 3 } : State).plen = 3 := by decide

theorem witness_UnknownOpcodeIsFatal :
    (boot [0xFF] [] []).latch = none ∧ (boot [0xFF] [] []).pc < (boot [0xFF] [] []).plen ∧
      ∀ o : Opcode, (boot [0xFF] [] []).byteAt (boot [0xFF] [] []).pc ≠ (boot [0xFF] [] []).config.opcodes.byte o :=
  ⟨rfl, by decide, fun o => by cases o <;> decide⟩

theorem witness_TruncatedInstructionFaults :
    (boot [0x35, 0] [] []).latch = none ∧ (boot [0x35, 0] [] []).pc < (boot [0x35, 0] [] []).plen ∧
      (boot [0x35, 0] [] []).config.opcodes.opcode? ((boot [0x35, 0] [] []).byteAt 0) = some .sqrt ∧
      (boot [0x35, 0] [] []).plen < 0 + Opcode.sqrt.width := by decide

theorem witness_StepStopsOnlyOnALatchedFault : faulted.latch = some (.unknownOpcode 0 0xFF) := by decide

-- every instruction decodes and continues, and one raises a fault
theorem witness_ExecuteAndCommit :
    (hostStep (boot [0x78, 0xEA, 0x00, 0x00, 0xA0, 0x02] [] [])).map Prod.fst = some .continuing ∧
    (hostStep (boot [0x81, 0x9B, 0x02, 0x00, 0xC8, 0x00] [] [(667, 999)])).map Prod.fst = some .continuing ∧
    (hostStep (boot [0x7B, 0xED, 0x3C, 0x01, 0x00, 0x00] [(109, 777)] [])).map Prod.fst = some .continuing ∧
    (hostStep (boot [0x35, 0x84, 0x01] [(3, 4)] [])).map Prod.fst = some .continuing ∧
    (hostStep (boot [0x35, 0x84, 0x01] [(3, -4)] [])).map Prod.fst = some (.fault (.invalidOperand 0 0x35 3 (-4))) ∧
    decode OpcodeMap.default [0x78, 0xEA, 0x00, 0x00, 0xA0, 0x02] = .instr (.loadConst 234 84) [] ∧
    decode OpcodeMap.default [0x81, 0x9B, 0x02, 0x00, 0xC8, 0x00] = .instr (.loadMem 667 50) [] ∧
    decode OpcodeMap.default [0x7B, 0xED, 0x3C, 0x01, 0x00, 0x00] = .instr (.storeMem 109 633) [] ∧
    decode OpcodeMap.default [0x35, 0x84, 0x01] = .instr (.sqrt 4 3) [] := by decide

theorem witness_PcChangesInThreeWays :
    (hostStep (boot [0x35, 0x84, 0x01] [(3, 4)] [])).map Prod.fst = some .continuing ∧
    (hostStep (boot [] [] [])).map Prod.fst = some .halted := by decide

theorem witness_ProgramBufferIsReadOnly :
    (after (exec (.storeMem 0 0) (boot [0x7B, 0, 0, 0, 0, 0] [(0, 1)] []))).isSome = true ∧
    (after (step (boot [0x7B, 0, 0, 0, 0, 0] [(0, 1)] []))).isSome = true := by decide

theorem witness_LoadConstWritesTheConstant :
    State.reset.wf = true ∧ 127 < State.reset.config.regCount := by decide

theorem witness_LoadMemCopiesTheCell :
    (boot [] [] [(2047, -5)]).wf = true ∧ 2047 < (boot [] [] []).config.memSize ∧
      127 < (boot [] [] []).config.regCount := by decide

theorem witness_StoreMemCopiesTheRegister :
    (boot [] [(127, 42)] []).wf = true ∧ 127 < (boot [] [] []).config.regCount ∧
      2047 < (boot [] [] []).config.memSize := by decide

theorem witness_SqrtWritesTheIntegerRoot :
    (boot [] [(5, 1000)] []).wf = true ∧ 5 < (boot [] [] []).config.regCount ∧
      0 ≤ (boot [] [(5, 1000)] []).readReg 5 ∧ 0 ≤ (boot [] [(5, 1000)] []).readReg 0 := by decide

-- the clauses meet at index 64 of 64 registers and address 2048 of 2048 cells
theorem witness_DataMovementOperandFaults :
    (bootSmall 64 [] [] []).config.regCount ≤ 64 ∧ (bootSmall 64 [] [] []).config.memSize ≤ 2048 ∧
      2047 < (bootSmall 64 [] [] []).config.memSize ∧ 63 < (bootSmall 64 [] [] []).config.regCount := by decide

theorem witness_SqrtOperandFaults :
    (bootSmall 64 [] [(3, -1)] []).config.regCount ≤ 64 ∧ 3 < (bootSmall 64 [] [(3, -1)] []).config.regCount ∧
      (bootSmall 64 [] [(3, -1)] []).readReg 3 < 0 ∧ 0 ≤ (bootSmall 64 [] [(3, -1)] []).readReg 4 := by decide

theorem witness_DefaultCoreCompletes :
    State.reset.config.regCount = 256 ∧ State.reset.config.memSize = 2048 ∧ State.reset.nonneg = true ∧
      State.reset.latch = none ∧ Instr.wf (.loadMem 2047 127) = true ∧
      (∀ b c, Instr.loadMem 2047 127 = .loadMem b c → b < 2048) ∧
      (∀ b c, Instr.loadMem 2047 127 = .storeMem b c → c < 2048) :=
  ⟨rfl, rfl, rfl, rfl, by decide, fun b c h => by cases h; decide, fun b c h => by cases h⟩

-- each instruction completes, and two cores that differ in register 9 alone run SQRT r4, r3
theorem witness_RegisterAccessByInstruction :
    ((after (exec (.loadConst 1 127) (boot [] [] []))).map State.latch = some none ∧
      (after (exec (.loadMem 2047 127) (boot [] [] []))).map State.latch = some none ∧
      (after (exec (.storeMem 127 2047) (boot [] [] []))).map State.latch = some none ∧
      (after (exec (.sqrt 127 127) (boot [] [] []))).map State.latch = some none ∧ (boot [] [] []).wf = true) ∧
    (boot [] [(3, 16)] []).wf = true ∧ (boot [] [(3, 16), (9, 1)] []).wf = true ∧ (boot [] [(3, 16)] []).latch = none ∧
      Cells.read [(3, 16), (9, 1)] 3 = (boot [] [(3, 16)] []).readReg 3 ∧
      (after (exec (.sqrt 4 3) (boot [] [(3, 16)] []))).isSome = true ∧
      (after (exec (.sqrt 4 3) (boot [] [(3, 16), (9, 1)] []))).isSome = true := by decide

theorem witness_StoreThenLoadReturnsTheValue :
    (boot [] [(1, 7)] []).wf = true ∧ 1 < (boot [] [] []).config.regCount ∧ 2047 < (boot [] [] []).config.memSize ∧
      2 < (boot [] [] []).config.regCount := by decide

theorem witness_FaultSavesNothing :
    (boot [0xFF] [] []).latch = none ∧
      hostStep (boot [0xFF] [] []) = some (.fault (.unknownOpcode 0 0xFF), faulted) := by decide

theorem witness_OnlyLoadLeavesAFaultedState :
    faulted.latch = some (.unknownOpcode 0 0xFF) ∧ (after (exec (.sqrt 0 0) faulted)).isSome = true ∧
      ∀ p, HostOp.step ≠ .load p := ⟨rfl, by decide, fun p h => by cases h⟩

theorem witness_HaltedIsStable :
    State.reset.latch = none ∧ State.reset.plen ≤ State.reset.pc ∧ ∀ p, HostOp.writeReg 0 1 ≠ .load p :=
  ⟨rfl, Nat.le_refl 0, fun p h => by cases h⟩

theorem witness_RunRepeatsStep :
    (hostStep (boot [0x35, 0, 0] [] [])).map Prod.fst = some .continuing ∧
    (hostStep State.reset).map Prod.fst = some .halted ∧
    (hostStep (boot [0xFF] [] [])).map Prod.fst = some (.fault (.unknownOpcode 0 0xFF)) := by decide

-- one instruction of 3 bytes: two steps are fuel enough
theorem witness_EveryRunEnds :
    ((boot [0x35, 0, 0] [] []).plen - (boot [0x35, 0, 0] [] []).pc) / 3 + 1 ≤ 2 ∧
      (runFuel 2 (boot [0x35, 0, 0] [] [])).map Prod.fst = some .halted := by decide

theorem witness_RunEndsWellOrFaults :
    (run (boot [0x35, 0, 0] [] [])).map Prod.fst = some .halted ∧
    (run (boot [0xFF] [] [])).map Prod.fst = some (.fault (.unknownOpcode 0 0xFF)) := by decide

theorem witness_ExecutionStartsAtOffsetZero :
    decode State.reset.config.opcodes [0x35, 0x85, 0x02] = .instr (.sqrt 5 5) [] := by decide

-- the last register and the last cell, and a finite cell at the ends of its range
theorem witness_HostReachesEveryCell :
    State.reset.wf = true ∧ 255 < State.reset.config.regCount ∧ 2047 < State.reset.config.memSize ∧
      fits State.reset.config (-5) = true ∧ State.reset.config.cellBits = none ∧
      fits { defaultConfig with cellBits := some 28 } (-2 ^ 27) = true ∧
      fits { defaultConfig with cellBits := some 28 } (2 ^ 27) = false ∧
      (boot [0x35, 0, 0] [] []).nonneg = true ∧ (after (step (boot [0x35, 0, 0] [] []))).isSome = true := by decide

-- each side of each array
theorem witness_HostAccessOutsideIsRefused :
    ((-1 : Int) < 0) ∧ ((State.reset.config.regCount : Int) ≤ 256) ∧ ((State.reset.config.memSize : Int) ≤ 2048) := by
  decide

theorem witness_StepKeepsWellFormed :
    (boot [0x35, 0x84, 0x01] [(3, 16)] []).wf = true ∧
      (after (step (boot [0x35, 0x84, 0x01] [(3, 16)] []))).isSome = true := by decide

theorem witness_HostOperationsKeepWellFormed : (boot [0xFF] [] []).wf = true := by decide

-- an instruction boundary past the first
theorem witness_PcStaysOnInstructionBoundaries :
    Boundary OpcodeMap.default [0x35, 0, 0, 0x35, 0, 0] 3 ∧
      (after (step { boot [0x35, 0, 0, 0x35, 0, 0] [] [] with pc := 3 })).isSome = true :=
  ⟨.next 0 (.sqrt 0 0) [0x35, 0, 0] .entry (by decide), by decide⟩

theorem witness_CellWidthIsNotObservable :
    (after (step (boot [0x35, 0x84, 0x01] [(3, 16)] []))).isSome = true := by decide

theorem witness_DecoderBlockAgreesWithDecode :
    decode OpcodeMap.default [0x35, 0x85, 0x02] = .instr (.sqrt 5 5) [] ∧
    decode OpcodeMap.default [0xFF] = .unknownOpcode 0xFF ∧
    decode OpcodeMap.default [0x35, 0x85] = .truncated 0x35 2 := by decide

end Sys2Proof.Tests
end

/-!
SUPPORT. What an instruction reads and writes, said once for all four (10_state.md R23): the cell it names, the register it
reads, the value it writes, and the frame around them; and what a host access leaves of pc.
-/

namespace Sys2Proof.Machine

/-! ### The cells an instruction names -/

/-- The register an instruction writes, if it writes one (10_state.md R23). -/
def destReg? : Instr → Option Nat
  | .loadConst _ c => some c
  | .loadMem _ c => some c
  | .storeMem _ _ => none
  | .sqrt b _ => some b

/-- The memory cell an instruction writes, if it writes one (20_memory.md, 41_data_movement.md R112). -/
def destMem? : Instr → Option Nat
  | .loadConst _ _ => none
  | .loadMem _ _ => none
  | .storeMem _ c => some c
  | .sqrt _ _ => none

/-- The register whose value an instruction reads, if it reads one (10_state.md R23). -/
def srcReg? : Instr → Option Nat
  | .loadConst _ _ => none
  | .loadMem _ _ => none
  | .storeMem b _ => some b
  | .sqrt _ c => some c

/-- The integer an instruction writes to the cell it names when it completes. -/
def written (i : Instr) (s : State) : Int :=
  match i with
  | .loadConst b _ => b
  | .loadMem b _ => s.readMem b
  | .storeMem b _ => s.readReg b
  | .sqrt _ c => isqrt (s.readReg c).toNat

/-! ### The effect of an instruction that completes -/

theorem effect_readReg_dest {i : Instr} {s : State} {r : Nat} (hwf : RegFile.wf s.config.regCount s.regs = true)
    (hr : destReg? i = some r) : (effect i s).readReg r = written i s := by
  cases i <;> cases hr <;> exact readReg_writeReg_same hwf

theorem effect_readMem_dest {i : Instr} {s : State} {a : Nat} (hwf : Memory.wf s.config.memSize s.mem = true)
    (ha : destMem? i = some a) : (effect i s).readMem a = written i s := by
  cases i <;> cases ha
  exact readMem_writeMem_same hwf

theorem effect_readReg_other {i : Instr} (s : State) {r : Nat} (hr : destReg? i ≠ some r) :
    (effect i s).readReg r = s.readReg r := by
  have hne : ∀ {d : Nat}, some d ≠ some r → r ≠ d := fun h heq => h (heq ▸ rfl)
  cases i with
  | loadConst b c => exact readReg_writeReg_other s (hne hr)
  | loadMem b c => exact readReg_writeReg_other s (hne hr)
  | storeMem b c => rfl
  | sqrt b c => exact readReg_writeReg_other s (hne hr)

theorem effect_readMem_other {i : Instr} (s : State) {a : Nat} (ha : destMem? i ≠ some a) :
    (effect i s).readMem a = s.readMem a := by
  cases i with
  | loadConst b c => rfl
  | loadMem b c => rfl
  | storeMem b c => exact readMem_writeMem_other s fun heq => ha (heq ▸ rfl)
  | sqrt b c => rfl

/-! ### The state an instruction goes on to -/

theorem exec_next_of_fault {i : Instr} {s t : State} {f : Fault} (hf : firstFault (checksOf i s) = some f)
    (h : exec i s = .next t) : t = s.latched f := by
  simpa [exec_eq_commit, commit, hf, raise, eq_comm] using h

theorem exec_next_of_pass {i : Instr} {s t : State} (hf : firstFault (checksOf i s) = none)
    (h : exec i s = .next t) : t = effect i s := by
  simpa [exec_eq_commit, commit, hf, eq_comm] using h

/-- An instruction that answers `t` has latched its first fault, or has had its effect with every check passed. -/
theorem exec_next_cases {i : Instr} {s t : State} (h : exec i s = .next t) :
    (∃ f, firstFault (checksOf i s) = some f ∧ t = s.latched f) ∨
      (firstFault (checksOf i s) = none ∧ t = effect i s) := by
  cases hf : firstFault (checksOf i s) with
  | some f => exact .inl ⟨f, rfl, exec_next_of_fault hf h⟩
  | none => exact .inr ⟨rfl, exec_next_of_pass hf h⟩

/-- An instruction that leaves no fault latched has completed. -/
theorem exec_next_of_clear {i : Instr} {s t : State} (h : exec i s = .next t) (hl : t.latch = none) :
    t = effect i s := by
  rcases exec_next_cases h with ⟨f, -, rfl⟩ | ⟨-, ht⟩
  · simp at hl
  · exact ht

/-- No instruction, completed or faulting, writes a register it does not name. -/
theorem exec_readReg_other {i : Instr} {s t : State} {r : Nat} (h : exec i s = .next t) (hr : destReg? i ≠ some r) :
    t.readReg r = s.readReg r := by
  rcases exec_next_cases h with ⟨f, -, rfl⟩ | ⟨-, rfl⟩
  · simp
  · exact effect_readReg_other s hr

/-- No instruction, completed or faulting, writes a memory cell it does not name. -/
theorem exec_readMem_other {i : Instr} {s t : State} {a : Nat} (h : exec i s = .next t) (ha : destMem? i ≠ some a) :
    t.readMem a = s.readMem a := by
  rcases exec_next_cases h with ⟨f, -, rfl⟩ | ⟨-, rfl⟩
  · simp
  · exact effect_readMem_other s ha

theorem exec_readReg_dest {i : Instr} {s t : State} {r : Nat} (hwf : s.wf = true) (h : exec i s = .next t)
    (hr : destReg? i = some r) (hl : t.latch = none) : t.readReg r = written i s := by
  obtain ⟨-, hregs, -⟩ := wf_parts hwf
  rw [exec_next_of_clear h hl, effect_readReg_dest hregs hr]

theorem exec_readMem_dest {i : Instr} {s t : State} {a : Nat} (hwf : s.wf = true) (h : exec i s = .next t)
    (ha : destMem? i = some a) (hl : t.latch = none) : t.readMem a = written i s := by
  obtain ⟨-, -, hmem, -⟩ := wf_parts hwf
  rw [exec_next_of_clear h hl, effect_readMem_dest hmem ha]

/-- What an instruction that names a register does: it writes there, and no other register and no memory cell changes. -/
theorem exec_register_access {i : Instr} {s t : State} {d : Nat} (hwf : s.wf = true) (hd : destReg? i = some d)
    (hm : destMem? i = none) (h : exec i s = .next t) :
    (t.latch = none → t.readReg d = written i s) ∧ (∀ r, r ≠ d → t.readReg r = s.readReg r) ∧
      ∀ a, t.readMem a = s.readMem a :=
  ⟨exec_readReg_dest hwf h hd, fun r hr => exec_readReg_other h (by simpa [hd] using hr.symm),
    fun a => exec_readMem_other h (by simp [hm])⟩

/-- What an instruction that names a memory cell does: it writes there, and no register and no other cell changes. -/
theorem exec_memory_access {i : Instr} {s t : State} {d : Nat} (hwf : s.wf = true) (hd : destMem? i = some d)
    (hr : destReg? i = none) (h : exec i s = .next t) :
    (t.latch = none → t.readMem d = written i s) ∧ (∀ r, t.readReg r = s.readReg r) ∧
      ∀ a, a ≠ d → t.readMem a = s.readMem a :=
  ⟨exec_readMem_dest hwf h hd, fun r => exec_readReg_other h (by simp [hr]),
    fun a ha => exec_readMem_other h (by simpa [hd] using ha.symm)⟩

/-! ### Two register files that agree on the register an instruction reads -/

section SourceAgrees

variable {i : Instr} {s : State} {x : Cells} (hx : ∀ r, srcReg? i = some r → Cells.read x r = s.readReg r)
include hx

theorem readReg_src_setRegs {r : Nat} (hr : srcReg? i = some r) :
    ({ s with regs := x } : State).readReg r = s.readReg r := hx r hr

/-- The checks of an instruction look at the parameters, pc and the register it reads. -/
theorem checksOf_setRegs : checksOf i { s with regs := x } = checksOf i s := by
  cases i with
  | loadConst b c => rfl
  | loadMem b c => rfl
  | storeMem b c => rfl
  | sqrt b c =>
    have hc := readReg_src_setRegs hx (r := c) rfl
    simp only [checksOf, regCheck, signCheck, hc, State.opByte]

theorem written_setRegs : written i { s with regs := x } = written i s := by
  cases i with
  | loadConst b c => rfl
  | loadMem b c => rfl
  | storeMem b c => exact readReg_src_setRegs hx rfl
  | sqrt b c => simp only [written, readReg_src_setRegs hx (r := c) rfl]

theorem effect_setRegs_mem : (effect i { s with regs := x }).mem = (effect i s).mem := by
  cases i with
  | loadConst b c => rfl
  | loadMem b c => rfl
  | storeMem b c => exact congrArg (Cells.write s.mem c) (readReg_src_setRegs hx rfl)
  | sqrt b c => rfl

/-- An instruction answers the same latch, pc and memory from both register files. -/
theorem exec_setRegs_agree {t u : State} (ht : exec i s = .next t) (hu : exec i { s with regs := x } = .next u) :
    u.latch = t.latch ∧ u.pc = t.pc ∧ u.mem = t.mem := by
  have hchecks := congrArg firstFault (checksOf_setRegs hx)
  rcases exec_next_cases ht with ⟨f, hf, rfl⟩ | ⟨hf, rfl⟩
  · obtain rfl := exec_next_of_fault (hchecks.trans hf) hu
    exact ⟨rfl, rfl, rfl⟩
  · obtain rfl := exec_next_of_pass (hchecks.trans hf) hu
    exact ⟨by simp, by simp, effect_setRegs_mem hx⟩

/-- An instruction that completes writes the same integer from both register files. -/
theorem exec_setRegs_dest {t u : State} {r : Nat} (hs : s.wf = true) (hsx : ({ s with regs := x } : State).wf = true)
    (ht : exec i s = .next t) (hu : exec i { s with regs := x } = .next u) (hl : t.latch = none)
    (hr : destReg? i = some r) : u.readReg r = t.readReg r := by
  have hlu : u.latch = none := (exec_setRegs_agree hx ht hu).1.trans hl
  calc u.readReg r
      = written i { s with regs := x } := exec_readReg_dest hsx hu hr hlu
    _ = written i s := written_setRegs hx
    _ = t.readReg r := (exec_readReg_dest hs ht hr hl).symm

end SourceAgrees

/-! ### The program counter under host accesses -/

/-- A host access, done or refused by its guard, leaves pc where it was if the access itself does. -/
theorem guarded_access_pc {s t : State} {guard : Bool} {reply : HostReply} (ht : t.pc = s.pc) :
    (if guard then (reply, t) else (HostReply.refused, s)).2.pc = s.pc := by
  cases guard
  · rfl
  · exact ht

/-! ### The program counter under the host's step -/

/-- A step that continues has run the instruction decoded at pc. -/
theorem hostStep_continuing {s t : State} (h : hostStep s = some (.continuing, t)) :
    ∃ i rest, decode s.config.opcodes s.fetchBytes = .instr i rest ∧ t = effect i s := by
  rcases hostStep_cases s with ⟨f, -, hs⟩ | ⟨-, -, hs⟩ | ⟨f, -, -, hs⟩ | ⟨i, rest, -, hd, -, -, hs⟩ <;>
    rw [hs] at h <;> cases h
  exact ⟨i, rest, hd, rfl⟩

/-- A step that halts or faults leaves pc where it was. -/
theorem hostStep_stopped_pc {s t : State} {sig : Signal} (h : hostStep s = some (sig, t)) (hsig : sig ≠ .continuing) :
    t.pc = s.pc := by
  rcases hostStep_cases s with ⟨f, -, hs⟩ | ⟨-, -, hs⟩ | ⟨f, -, -, hs⟩ | ⟨i, rest, -, -, -, -, hs⟩ <;>
    rw [hs] at h <;> cases h
  · rfl
  · rfl
  · rfl
  · exact absurd rfl hsig

/-! ### The statements about the state -/

/-- Settles O18: the load, the continuing step, the step that stops and the host accesses are the cases of the host's
operations. -/
theorem pcChangesInThreeWays : Obligations.PcChangesInThreeWays := by
  refine ⟨fun s p => load_pc s p, fun s t h => ?_, fun s t sig h hsig => hostStep_stopped_pc h hsig, fun s i v => ?_⟩
  · obtain ⟨i, rest, hd, rfl⟩ := hostStep_continuing h
    exact ⟨i, rest, hd, by cases i <;> rfl⟩
  · exact ⟨guarded_access_pc rfl, guarded_access_pc rfl, guarded_access_pc (writeReg_pc s i.toNat v),
      guarded_access_pc (writeMem_pc s i.toNat v), rfl⟩

/-- Settles O28: the frame and the value written come from the cells each instruction names; the second clause from the checks
and the written value, which look at no register but the source. -/
theorem registerAccessByInstruction : Obligations.RegisterAccessByInstruction := by
  constructor
  · intro s t b c hwf _
    exact ⟨exec_register_access hwf rfl rfl, exec_register_access hwf rfl rfl, exec_memory_access hwf rfl rfl,
      exec_register_access hwf rfl rfl⟩
  · intro s t u x i hs hsx _ hstore hsqrt ht hu
    have hx : ∀ r, srcReg? i = some r → Cells.read x r = s.readReg r := by
      intro r hr
      cases i <;> cases hr
      case storeMem c => exact hstore r c rfl
      case sqrt b => exact hsqrt b r rfl
    obtain ⟨hlatch, hpc, hmem⟩ := exec_setRegs_agree hx ht hu
    refine ⟨hlatch, hpc, hmem, fun hl b c => ⟨?_, ?_⟩⟩
    · rintro (rfl | rfl) <;> exact exec_setRegs_dest hx hs hsx ht hu hl rfl
    · rintro rfl
      exact exec_setRegs_dest hx hs hsx ht hu hl rfl

/-- Settles O36: the power-on arrays list no cell, and `load` touches neither array. -/
theorem powerOnCellsAreZeroAndLoadKeepsCells : Obligations.PowerOnCellsAreZeroAndLoadKeepsCells :=
  ⟨fun _ => rfl, fun _ => rfl, rfl, fun s p => ⟨fun r => load_readReg s r p, fun a => load_readMem s a p⟩⟩

end Sys2Proof.Machine

/-!
SUPPORT. The codec on fields: how a layout's fields tile the instruction integer, that the encoder joins them without overlap
and the decoder cuts them out again (30_encoding.md R61, R70-R74).
-/

namespace Sys2Proof.Machine

/-! ### Bit fields of a joined integer -/

@[simp] theorem bitField_zero (n w : Nat) : bitField n 0 w = n % 2 ^ w := rfl

/-- A field at or above offset `lo` is a field of the integer without its `lo` low bits. -/
theorem bitField_add (n lo off w : Nat) : bitField n (lo + off) w = bitField (n / 2 ^ lo) off w := by
  simp only [bitField, Nat.shiftRight_eq_div_pow, pow_add, Nat.div_div_eq_div_mul]

section Joined

variable {x lo : Nat} (hx : x < 2 ^ lo)
include hx

theorem bitField_join_low (y : Nat) : bitField (x + 2 ^ lo * y) 0 lo = x := by
  rw [bitField_zero, Nat.add_mul_mod_self_left, Nat.mod_eq_of_lt hx]

theorem bitField_join_high (y off w : Nat) : bitField (x + 2 ^ lo * y) (lo + off) w = bitField y off w := by
  rw [bitField_add, Nat.add_mul_div_left _ _ (Nat.two_pow_pos lo), Nat.div_eq_of_lt hx, Nat.zero_add]

theorem join_lt {y hi : Nat} (hy : y < 2 ^ hi) : x + 2 ^ lo * y < 2 ^ (lo + hi) := by
  calc x + 2 ^ lo * y < 2 ^ lo * (y + 1) := by rw [Nat.mul_succ]; omega
    _ ≤ 2 ^ lo * 2 ^ hi := Nat.mul_le_mul_left _ hy
    _ = 2 ^ (lo + hi) := (pow_add 2 lo hi).symm

end Joined

/-- Byte `j` of an integer written little-endian is its bits `8j` to `8j + 7`. -/
theorem toNat_getD_leBytes {k j : Nat} (hj : j < k) (n : Nat) :
    ((leBytes k n).getD j 0).toNat = bitField n (8 * j) 8 := by
  induction k generalizing j n with
  | zero => omega
  | succ k ih =>
    cases j with
    | zero => rw [leBytes, List.getD_cons_zero, BitVec.toNat_ofNat, Nat.mul_zero, bitField_zero]
    | succ j => rw [leBytes, List.getD_cons_succ, ih (by omega), ← bitField_add, Nat.mul_succ, Nat.add_comm]

/-! ### The layouts: each field starts where the one below it ends -/

theorem layout_bOff (o : Opcode) : o.layout.bOff = 8 := by cases o <;> rfl

theorem layout_cOff (o : Opcode) : o.layout.cOff = 8 + o.layout.bWidth := by cases o <;> rfl

theorem layout_fits_width (o : Opcode) : o.layout.cOff + o.layout.cWidth ≤ 8 * o.width := by cases o <;> decide

/-! ### Masking a field to its width -/

theorem toNat_emod_two_pow_lt (n : Int) (w : Nat) : (n % 2 ^ w).toNat < 2 ^ w := by
  have hp : (0 : Int) < 2 ^ w := by positivity
  have hlt := Int.emod_lt_of_pos n hp
  exact (Int.toNat_lt (Int.emod_nonneg n hp.ne')).2 (by exact_mod_cast hlt)

/-- A value within a field's width is not changed by masking. -/
theorem toNat_emod_two_pow_of_lt {n w : Nat} (h : n < 2 ^ w) : ((n : Int) % 2 ^ w).toNat = n := by
  rw [Int.emod_eq_of_lt (Int.natCast_nonneg n) (by exact_mod_cast h), Int.toNat_natCast]

/-! ### The instruction integer -/

section Packed

variable (o : Opcode) (a b c : Int)

/-- The masked fields joined one above the other. -/
theorem packFields_eq_join : packFields o.layout a b c =
    (a % 2 ^ 8).toNat + 2 ^ 8 * ((b % 2 ^ o.layout.bWidth).toNat
      + 2 ^ o.layout.bWidth * (c % 2 ^ o.layout.cWidth).toNat) := by
  rw [packFields, layout_bOff, layout_cOff, pow_add]
  ring

/-- No bit of the instruction integer lies above its field C (30_encoding.md R70). -/
theorem packFields_lt : packFields o.layout a b c < 2 ^ (o.layout.cOff + o.layout.cWidth) := by
  rw [packFields_eq_join, layout_cOff, Nat.add_assoc]
  exact join_lt (toNat_emod_two_pow_lt a 8) (join_lt (toNat_emod_two_pow_lt b _) (toNat_emod_two_pow_lt c _))

theorem packFields_fieldA : bitField (packFields o.layout a b c) 0 8 = (a % 2 ^ 8).toNat := by
  rw [packFields_eq_join, bitField_join_low (toNat_emod_two_pow_lt a 8)]

theorem packFields_fieldB :
    bitField (packFields o.layout a b c) o.layout.bOff o.layout.bWidth = (b % 2 ^ o.layout.bWidth).toNat := by
  rw [packFields_eq_join, layout_bOff]
  exact (bitField_join_high (toNat_emod_two_pow_lt a 8) _ 0 _).trans (bitField_join_low (toNat_emod_two_pow_lt b _) _)

theorem packFields_fieldC :
    bitField (packFields o.layout a b c) o.layout.cOff o.layout.cWidth = (c % 2 ^ o.layout.cWidth).toNat := by
  rw [packFields_eq_join, layout_cOff, bitField_join_high (toNat_emod_two_pow_lt a 8)]
  exact (bitField_join_high (toNat_emod_two_pow_lt b _) _ 0 _).trans (Nat.mod_eq_of_lt (toNat_emod_two_pow_lt c _))

/-- The encoding's bytes hold the whole instruction integer: the byte conversion discards no bit (30_encoding.md R70). -/
theorem leNat_encodeFields : leNat (encodeFields o a b c) = packFields o.layout a b c := by
  rw [encodeFields, leNat_leBytes]
  exact Nat.mod_eq_of_lt ((packFields_lt o a b c).trans_le (Nat.pow_le_pow_right (by decide) (layout_fits_width o)))

/-- Byte `k` of an encoding is slice `I[8k+7:8k]` of the instruction integer (30_encoding.md R70). -/
theorem toNat_getD_encodeFields {k : Nat} (hk : k < o.width) :
    ((encodeFields o a b c).getD k 0).toNat = bits (packFields o.layout a b c) (8 * k + 7) (8 * k) := by
  rw [encodeFields, toNat_getD_leBytes hk, bits_eq_bitField (w := 8) (by omega)]

end Packed

/-! ### The statements about fields -/

/-- Settles O2: the bytes hold the whole instruction integer, and each field is cut out of it at the place it was put. -/
theorem truncationLaw : Obligations.TruncationLaw := by
  intro o a b c
  rw [decodeFields, leNat_encodeFields, packFields_fieldA, packFields_fieldB, packFields_fieldC]

/-- Settles O1: the wrapping law on fields that the wrapping leaves as they are. -/
theorem roundTripLaw : Obligations.RoundTripLaw := by
  intro o a b c ha hb hc
  rw [truncationLaw, toNat_emod_two_pow_of_lt ha, toNat_emod_two_pow_of_lt hb, toNat_emod_two_pow_of_lt hc]

/-- Settles O3: the four joined integers are those of the layouts, so their bounds and bytes are the layouts'. -/
theorem encodeMasksShiftsAndWritesLittleEndian : Obligations.EncodeMasksShiftsAndWritesLittleEndian := by
  intro a b c
  refine ⟨⟨packFields_lt .loadConst a b c, packFields_lt .loadMem a b c, packFields_lt .storeMem a b c,
    packFields_lt .sqrt a b c⟩, ?_, fun k hk => ?_, fun k hk => ?_⟩
  · exact ⟨encodeFields_length _ a b c, encodeFields_length _ a b c, encodeFields_length _ a b c,
      encodeFields_length _ a b c⟩
  · exact ⟨toNat_getD_encodeFields .loadConst a b c hk, toNat_getD_encodeFields .loadMem a b c hk,
      toNat_getD_encodeFields .storeMem a b c hk⟩
  · exact toNat_getD_encodeFields .sqrt a b c hk

/-- Field A is the lowest byte of the instruction integer. -/
theorem decodeFields_cons_fst (o : Opcode) (op : Byte) (rest : List Byte) :
    (decodeFields o (op :: rest)).1 = op.toNat :=
  bitField_join_low op.isLt (leNat rest)

/-- A decoded instruction begins with its opcode byte. -/
theorem decode_instr_head? {m : OpcodeMap} {bytes rest : List Byte} {i : Instr} (h : decode m bytes = .instr i rest) :
    bytes.head? = some (m.byte i.opcode) := by
  obtain ⟨op, tail, rfl, hop, -⟩ := decode_instr_iff.1 h
  rw [List.head?_cons, byte_of_opcode hop]

/-- Settles O7: in the decoder's fields, in the encoder's bytes and in the dispatch on the first byte. -/
theorem opcodeFieldIsFirstByte : Obligations.OpcodeFieldIsFirstByte :=
  ⟨decodeFields_cons_fst, Laws.FirstByte.head_encodeFields, fun _ _ _ _ h => decode_instr_head? h⟩

end Sys2Proof.Machine

/-!
SUPPORT. The run as repeated steps (40_decode_dispatch.md R99): what a run does with the signal of its first step, and that
fuel beyond the steps left to the end of the program changes nothing (R101).
-/

namespace Sys2Proof.Machine

/-! ### The host's step, by its signal -/

/-- A step always answers, and it stops or continues. -/
theorem hostStep_stops_or_continues (s : State) :
    (∃ sig t, hostStep s = some (sig, t) ∧ sig ≠ .continuing) ∨ ∃ t, hostStep s = some (.continuing, t) := by
  rcases hostStep_cases s with ⟨f, -, hs⟩ | ⟨-, -, hs⟩ | ⟨f, -, -, hs⟩ | ⟨i, rest, -, -, -, -, hs⟩
  · exact .inl ⟨_, _, hs, by simp⟩
  · exact .inl ⟨_, _, hs, by simp⟩
  · exact .inl ⟨_, _, hs, by simp⟩
  · exact .inr ⟨_, hs⟩

/-- A step at or past the end of the program, with no fault latched, halts and changes nothing (R92). -/
theorem hostStep_halted {s : State} (hl : s.latch = none) (hp : s.plen ≤ s.pc) :
    hostStep s = some (.halted, s) := by
  have hend : decode s.config.opcodes s.fetchBytes = .endOfProgram :=
    decode_endOfProgram_iff.2 (List.drop_eq_nil_of_le hp)
  simp [hostStep, step, fetch_of_clear hl, hend, classify, signalOf, hl, hp]

/-- A step that continues moves pc on by at least 3 bytes, inside the same program (R101). -/
theorem hostStep_continuing_advances {s t : State} (h : hostStep s = some (.continuing, t)) :
    t.plen = s.plen ∧ s.pc + 3 ≤ t.pc ∧ t.pc ≤ s.plen := by
  obtain ⟨i, rest, hd, rfl⟩ := hostStep_continuing h
  rw [effect_pc]
  exact ⟨congrArg List.length (effect_program i s), Nat.add_le_add_left (three_le_width i) _, decoded_inside hd⟩

/-! ### The run under fuel -/

theorem runFuel_continuing {s t : State} (fuel : Nat) (h : hostStep s = some (.continuing, t)) :
    runFuel (fuel + 1) s = runFuel fuel t := by
  rw [runFuel, h]

theorem runFuel_stopped {s t : State} {sig : Signal} (fuel : Nat) (h : hostStep s = some (sig, t))
    (hsig : sig ≠ .continuing) : runFuel (fuel + 1) s = some (sig, t) := by
  rw [runFuel, h]
  cases sig with
  | continuing => exact absurd rfl hsig
  | halted => rfl
  | fault f => rfl

/-- Any two amounts of fuel that reach the end of the program give the same run. -/
theorem runFuel_eq_of_enough {s : State} {m n : Nat} (hm : (s.plen - s.pc) / 3 + 1 ≤ m)
    (hn : (s.plen - s.pc) / 3 + 1 ≤ n) : runFuel m s = runFuel n s := by
  induction m generalizing s n with
  | zero => omega
  | succ m ih =>
    obtain ⟨n, rfl⟩ : ∃ k, n = k + 1 := ⟨n - 1, by omega⟩
    rcases hostStep_stops_or_continues s with ⟨sig, t, hs, hsig⟩ | ⟨t, hs⟩
    · rw [runFuel_stopped m hs hsig, runFuel_stopped n hs hsig]
    · obtain ⟨hplen, hstep, hend⟩ := hostStep_continuing_advances hs
      rw [runFuel_continuing m hs, runFuel_continuing n hs]
      exact ih (by omega) (by omega)

/-- Fuel that reaches the end of the program is fuel enough for the run (R101). -/
theorem runFuel_eq_run {s : State} {fuel : Nat} (h : (s.plen - s.pc) / 3 + 1 ≤ fuel) : runFuel fuel s = run s :=
  runFuel_eq_of_enough h (by omega)

/-! ### The run by its first step -/

theorem run_continuing {s t : State} (h : hostStep s = some (.continuing, t)) : run s = run t := by
  obtain ⟨hplen, hstep, hend⟩ := hostStep_continuing_advances h
  calc run s = runFuel (s.plen / 3) t := runFuel_continuing _ h
    _ = run t := runFuel_eq_run (by omega)

theorem run_stopped {s t : State} {sig : Signal} (h : hostStep s = some (sig, t)) (hsig : sig ≠ .continuing) :
    run s = some (sig, t) :=
  runFuel_stopped _ h hsig

/-- Settles O33: the first step continues, and fuel enough for a run is enough for the rest of it, or it stops, and the run
with it; on the empty program it halts. -/
theorem runRepeatsStep : Obligations.RunRepeatsStep := by
  refine ⟨fun s t h => run_continuing h, fun s t h => run_stopped h (by simp), fun s t f h => run_stopped h (by simp),
    fun s => ⟨?_, load_regs s [], load_mem s []⟩⟩
  exact run_stopped (hostStep_halted (load_latch s []) (Nat.le_refl 0)) (by simp)

end Sys2Proof.Machine

/-!
SUPPORT. Faults and the way out of them (60_exceptions.md R142, R148, R149): the byte that is no opcode, the step that raises
a fault or finds one latched, and what the host's operations leave of a faulted state.
-/

namespace Sys2Proof.Machine

/-! ### A byte that is no opcode -/

theorem opcode_eq_none {m : OpcodeMap} {b : Byte} (h : ∀ o, b ≠ m.byte o) : m.opcode? b = none :=
  Option.eq_none_iff_forall_ne_some.2 fun o ho => h o (byte_of_opcode ho).symm

/-- The decoder rejects a byte that is no opcode whatever bytes follow, before it asks how many there are (R93). -/
theorem decode_unknownOpcode {m : OpcodeMap} {op : Byte} (h : m.opcode? op = none) (tail : List Byte) :
    decode m (op :: tail) = .unknownOpcode op := by
  simp [decode, h]

theorem fetch_unknownOpcode {s : State} (hl : s.latch = none) (hp : s.pc < s.plen)
    (hop : ∀ o, s.byteAt s.pc ≠ s.config.opcodes.byte o) :
    fetch s = .raises (.unknownOpcode s.pc (s.byteAt s.pc)) := by
  obtain ⟨tail, htail⟩ := fetchBytes_cons s hp
  rw [fetch_of_clear hl, htail, decode_unknownOpcode (opcode_eq_none hop), classify]

/-! ### The host's step at a fault -/

theorem hostStep_of_raises {s : State} {f : Fault} (h : fetch s = .raises f) :
    hostStep s = some (.fault f, s.latched f) := by
  simp [hostStep, step, h, raise, signalOf]

/-- A step of a faulted core returns the latched fault and changes nothing (R91). -/
theorem hostStep_of_latched {s : State} {f : Fault} (h : s.latch = some f) : hostStep s = some (.fault f, s) := by
  simp [hostStep, step, fetch, h]

/-- A step that raises a fault leaves the state before it, plus the latch (R140). -/
theorem hostStep_fault_next {s t : State} {f : Fault} (hl : s.latch = none) (h : hostStep s = some (.fault f, t)) :
    t = s.latched f := by
  rcases hostStep_cases s with ⟨g, hg, -⟩ | ⟨-, -, hs⟩ | ⟨g, -, -, hs⟩ | ⟨i, rest, -, -, -, -, hs⟩
  · simp [hl] at hg
  all_goals rw [hs] at h; cases h
  rfl

theorem run_of_fault {s t : State} {f : Fault} (h : hostStep s = some (.fault f, t)) : run s = some (.fault f, t) :=
  run_stopped h (by simp)

/-! ### A faulted state under instructions and host operations -/

/-- No instruction clears the latch: it latches its own fault, or has an effect that leaves the latch alone. -/
theorem exec_keeps_faulted {i : Instr} {s t : State} (hl : s.latch ≠ none) (h : exec i s = .next t) :
    t.latch ≠ none := by
  rcases exec_next_cases h with ⟨f, -, rfl⟩ | ⟨-, rfl⟩
  · simp
  · rwa [effect_latch]

/-- A host access, done or refused by its guard, leaves the latch as it was if the access itself does. -/
theorem guarded_access_latch {s t : State} {guard : Bool} {reply : HostReply} (ht : t.latch = s.latch) :
    (if guard then (reply, t) else (HostReply.refused, s)).2.latch = s.latch := by
  cases guard
  · rfl
  · exact ht

/-- Every host operation but `load` leaves a faulted core at its fault and its pc: steps and runs return the fault, and the
accesses touch neither. -/
theorem hostApply_of_latched {s : State} {f : Fault} {op : HostOp} (hl : s.latch = some f) (hop : ∀ p, op ≠ .load p) :
    (hostApply op s).2.latch = some f ∧ (hostApply op s).2.pc = s.pc := by
  have hstep := hostStep_of_latched hl
  rw [← hl]
  cases op with
  | load p => exact absurd rfl (hop p)
  | step => simp [hostApply, signalReply, hstep]
  | run => simp [hostApply, signalReply, run_of_fault hstep]
  | readReg i => exact ⟨guarded_access_latch rfl, guarded_access_pc rfl⟩
  | readMem a => exact ⟨guarded_access_latch rfl, guarded_access_pc rfl⟩
  | writeReg i v => exact ⟨guarded_access_latch (writeReg_latch s _ v), guarded_access_pc (writeReg_pc s _ v)⟩
  | writeMem a v => exact ⟨guarded_access_latch (writeMem_latch s _ v), guarded_access_pc (writeMem_pc s _ v)⟩
  | readPC => exact ⟨rfl, rfl⟩

/-! ### The statements about faults -/

/-- Settles O14: the fetch raises the fault on the first byte alone, and the run stops with its first step. -/
theorem unknownOpcodeIsFatal : Obligations.UnknownOpcodeIsFatal := by
  intro s hl hp hop
  have hs := hostStep_of_raises (fetch_unknownOpcode hl hp hop)
  exact ⟨_, hs, run_of_fault hs⟩

/-- Settles O30: the run stops with its first step, which leaves the state before it plus the latch. -/
theorem faultSavesNothing : Obligations.FaultSavesNothing := by
  intro s t f hl h
  obtain rfl := hostStep_fault_next hl h
  exact ⟨run_of_fault h, by simp⟩

/-- Settles O31: instructions and host operations other than `load` keep a faulted state faulted, and `load` restarts it. -/
theorem onlyLoadLeavesAFaultedState : Obligations.OnlyLoadLeavesAFaultedState := by
  intro s f hl
  have hfaulted : s.latch ≠ none := by simp [hl]
  exact ⟨fun i t h => exec_keeps_faulted hfaulted h, fun op hop => hostApply_of_latched hl hop,
    fun p => ⟨load_latch s p, load_pc s p, load_program s p⟩⟩

end Sys2Proof.Machine

/-!
SUPPORT. Reset and hazards (70_reset_and_hazards.md R172, R177): the instruction that a step of a core with no fault latched
runs, the fetch after a `load`, and what every instruction and every step leave of the program and the parameters.
-/

namespace Sys2Proof.Machine

/-! ### The program and the parameters -/

/-- No instruction, completed or faulting, writes the program or the parameters. -/
theorem exec_program_config {i : Instr} {s t : State} (h : exec i s = .next t) :
    t.program = s.program ∧ t.config = s.config := by
  rcases exec_next_cases h with ⟨f, -, rfl⟩ | ⟨-, rfl⟩
  · exact ⟨latched_program s f, latched_config s f⟩
  · exact ⟨effect_program i s, effect_config i s⟩

/-- A step that answers a next state halts, latches a fault or has the effect of an instruction, and none of these writes the
program or the parameters. -/
theorem step_program_config {s t : State} (h : step s = .next t) :
    t.program = s.program ∧ t.config = s.config := by
  rcases step_cases s with ⟨f, -, hs⟩ | ⟨-, -, hs⟩ | ⟨f, -, -, hs⟩ | ⟨i, rest, -, -, -, hs⟩ <;>
    rw [hs] at h <;> cases h
  · exact ⟨rfl, rfl⟩
  · exact ⟨latched_program s f, latched_config s f⟩
  · exact ⟨effect_program i s, effect_config i s⟩

/-! ### The first step after a load -/

/-- With no fault latched, a step runs the instruction decoded at pc (40_decode_dispatch.md R95, R98). -/
theorem step_of_decode {s : State} {i : Instr} {rest : List Byte} (hl : s.latch = none)
    (hd : decode s.config.opcodes s.fetchBytes = .instr i rest) : step s = exec i s := by
  simp [step, fetch_of_clear hl, hd, classify]

/-- After a load the fetch reads the loaded program from offset 0. -/
@[simp] theorem load_fetchBytes (s : State) (p : List Byte) : (s.load p).fetchBytes = p := rfl

/-! ### The statements about reset and hazards -/

/-- Settles O19: the frame of an instruction and of a step on the program and the parameters. -/
theorem programBufferIsReadOnly : Obligations.ProgramBufferIsReadOnly :=
  ⟨fun _ _ _ h => exec_program_config h, fun _ _ h => step_program_config h⟩

/-- Settles O38: `load` clears the latch and sets pc to 0, so the next step decodes the loaded program from its start. -/
theorem executionStartsAtOffsetZero : Obligations.ExecutionStartsAtOffsetZero := by
  intro s p rest i
  refine ⟨load_pc s p, fun hd => step_of_decode (rest := rest) (load_latch s p) ?_⟩
  rwa [load_config, load_fetchBytes]

end Sys2Proof.Machine

/-!
SUPPORT. The codec on instructions and programs: decoding an encoding, encoding what was decoded, and the image of a list of
instructions or of assembly lines taken apart again (30_encoding.md sections 3 to 6).
-/

namespace Sys2Proof.Machine

/-! ### Decoding an encoding -/

/-- A legal opcode with all its bytes there decodes to its instruction, its fields cut out of those bytes. -/
theorem decode_whole {m : OpcodeMap} {o : Opcode} {op : Byte} {tail : List Byte} (ho : m.opcode? op = some o)
    (hlen : o.width ≤ (op :: tail).length) :
    decode m (op :: tail) = .instr (o.instr (decodeFields o ((op :: tail).take o.width)).2.1
      (decodeFields o ((op :: tail).take o.width)).2.2) ((op :: tail).drop o.width) :=
  decode_instr_iff.2 ⟨op, tail, rfl, by simpa using ho, by simpa using hlen, by simp, by simp, by simp⟩

/-- The bytes that follow an instruction do not change what it decodes to. -/
theorem decode_append {m : OpcodeMap} {o : Opcode} {op : Byte} {x : List Byte} (ho : m.opcode? op = some o)
    (hx : (op :: x).length = o.width) (rest : List Byte) :
    decode m (op :: (x ++ rest)) =
      .instr (o.instr (decodeFields o (op :: x)).2.1 (decodeFields o (op :: x)).2.2) rest := by
  have htake : (op :: (x ++ rest)).take o.width = op :: x := List.take_left' hx
  have hdrop : (op :: (x ++ rest)).drop o.width = rest := List.drop_left' hx
  have hlen : o.width ≤ (op :: (x ++ rest)).length := by rw [← hx]; simp
  have hwhole := decode_whole ho hlen
  rwa [htake, hdrop] at hwhole

/-- Decoding encoded fields gives the operation with its fields masked to their widths. -/
theorem decode_encodeFields {m : OpcodeMap} (hm : m.distinct = true) (o : Opcode) (b c : Int) (rest : List Byte) :
    decode m (encodeFields o (m.byte o).toNat b c ++ rest) =
      .instr (o.instr (b % 2 ^ o.layout.bWidth).toNat (c % 2 ^ o.layout.cWidth).toNat) rest := by
  obtain ⟨x, hx⟩ := List.head?_eq_some_iff.1 (Laws.FirstByte.head_encodeFields o (m.byte o) b c)
  have hlen : (m.byte o :: x).length = o.width := by rw [← hx, encodeFields_length]
  rw [hx, List.cons_append, decode_append (opcode_of_byte hm o) hlen, ← hx, truncationLaw]

/-- Settles O4: the fields of a well-formed instruction are not changed by masking. -/
theorem decodeOfEncodeIsTheInstruction : Obligations.DecodeOfEncodeIsTheInstruction := by
  intro m i rest hm hi
  obtain ⟨hb, hc⟩ := (wf_iff_layout i).1 hi
  rw [encode, decode_encodeFields hm, toNat_emod_two_pow_of_lt hb, toNat_emod_two_pow_of_lt hc, instr_of_fields]

/-! ### Programs -/

theorem encode_length (m : OpcodeMap) (i : Instr) : (encode m i).length = i.width := encodeFields_length ..

/-- An image has at least as many bytes as instructions, so its length is fuel enough to take it apart. -/
theorem length_le_encodeAll (m : OpcodeMap) (is : List Instr) : is.length ≤ (encodeAll m is).length := by
  induction is with
  | nil => exact Nat.le_refl 0
  | cons i is ih =>
    have hw := three_le_width i
    rw [encodeAll, List.length_append, encode_length, List.length_cons]
    omega

theorem disassembleFuel_encodeAll {m : OpcodeMap} (hm : m.distinct = true) {is : List Instr}
    (his : ∀ i ∈ is, i.wf = true) {fuel : Nat} (hf : is.length ≤ fuel) :
    disassembleFuel m fuel (encodeAll m is) = some is := by
  induction is generalizing fuel with
  | nil => cases fuel <;> rfl
  | cons i is ih =>
    obtain ⟨hi, his⟩ := List.forall_mem_cons.1 his
    obtain ⟨k, rfl⟩ : ∃ k, fuel = k + 1 := ⟨fuel - 1, by rw [List.length_cons] at hf; omega⟩
    have hrest := ih his (Nat.le_of_succ_le_succ hf)
    rw [encodeAll, disassembleFuel, decodeOfEncodeIsTheInstruction m i _ hm hi]
    simp only [hrest, Option.map_some]

/-- Settles O9: by induction on the program, each instruction decoded with the rest of the image left. -/
theorem programImageDisassembles : Obligations.ProgramImageDisassembles :=
  fun m is hm his => disassembleFuel_encodeAll hm his (length_le_encodeAll m is)

/-! ### Assembly lines -/

/-- The instruction a line is assembled to: each operand in its field, masked to the field's width (30_encoding.md R70,
R81). -/
def lineInstr : AsmLine → Instr
  | .loadConst literal reg => .loadConst (literal % 2 ^ 27).toNat (reg % 2 ^ 7)
  | .loadMem addr reg => .loadMem (addr % 2 ^ 26) (reg % 2 ^ 7)
  | .storeMem reg addr => .storeMem (reg % 2 ^ 7) (addr % 2 ^ 26)
  | .sqrt out inp => .sqrt (out % 2 ^ 7) (inp % 2 ^ 7)

theorem lineInstr_wf (l : AsmLine) : (lineInstr l).wf = true := by
  have hmod : ∀ n w : Nat, n % 2 ^ w < 2 ^ w := fun n w => Nat.mod_lt n (Nat.two_pow_pos w)
  rw [wf_iff_layout]
  cases l with
  | loadConst literal reg => exact ⟨toNat_emod_two_pow_lt literal 27, hmod reg 7⟩
  | loadMem addr reg => exact ⟨hmod addr 26, hmod reg 7⟩
  | storeMem reg addr => exact ⟨hmod reg 7, hmod addr 26⟩
  | sqrt out inp => exact ⟨hmod out 7, hmod inp 7⟩

/-- The encoder masks: fields already masked give the same bytes. -/
theorem encodeFields_masked (o : Opcode) (a b c : Int) :
    encodeFields o a (b % 2 ^ o.layout.bWidth) (c % 2 ^ o.layout.cWidth) = encodeFields o a b c := by
  simp only [encodeFields, packFields, Int.emod_emod_of_dvd _ (Int.dvd_refl _)]

/-- A line's bytes are the encoding of its instruction. -/
theorem assembleLine_eq_encode (m : OpcodeMap) (l : AsmLine) : assembleLine m l = encode m (lineInstr l) := by
  cases l with
  | loadConst literal reg =>
    have hl : ((literal % 2 ^ 27).toNat : Int) = literal % 2 ^ 27 := Int.toNat_of_nonneg (by omega)
    calc assembleLine m (.loadConst literal reg)
        = encodeFields .loadConst m.loadConst.toNat (literal % 2 ^ 27) (reg % 2 ^ 7) :=
          (encodeFields_masked .loadConst m.loadConst.toNat literal reg).symm
      _ = encode m (lineInstr (.loadConst literal reg)) := by rw [← hl]; rfl
  | loadMem addr reg => exact (encodeFields_masked .loadMem m.loadMem.toNat addr reg).symm
  | storeMem reg addr => exact (encodeFields_masked .storeMem m.storeMem.toNat reg addr).symm
  | sqrt out inp => exact (encodeFields_masked .sqrt m.sqrt.toNat out inp).symm

theorem assembleLines_eq_encodeAll (m : OpcodeMap) (ls : List AsmLine) :
    assembleLines m ls = encodeAll m (ls.map lineInstr) := by
  induction ls with
  | nil => rfl
  | cons l ls ih => rw [assembleLines, List.map_cons, encodeAll, assembleLine_eq_encode, ih]

/-- Settles O10: the image of the lines is the program image of their masked instructions. -/
theorem assembledLinesDisassemble : Obligations.AssembledLinesDisassemble := by
  intro m ls hm
  have hwf : ∀ i ∈ ls.map lineInstr, i.wf = true := List.forall_mem_map.2 fun l _ => lineInstr_wf l
  rw [assembleLines_eq_encodeAll, programImageDisassembles m _ hm hwf]
  rfl

/-! ### Encoding what was decoded -/

/-- The instruction integer below the top of its field C is its three fields joined. -/
theorem mod_eq_join_fields (o : Opcode) (n : Nat) :
    n % 2 ^ (o.layout.cOff + o.layout.cWidth) =
      n % 2 ^ 8 + 2 ^ 8 * (bitField n o.layout.bOff o.layout.bWidth
        + 2 ^ o.layout.bWidth * bitField n o.layout.cOff o.layout.cWidth) := by
  rw [layout_cOff, layout_bOff, Nat.add_assoc, pow_add, Nat.mod_mul, pow_add, Nat.mod_mul]
  simp only [bitField, Nat.shiftRight_eq_div_pow, pow_add, Nat.div_div_eq_div_mul]

/-- The instruction integer of a well-formed instruction is its unmasked fields joined. -/
theorem leNat_encode {m : OpcodeMap} {i : Instr} (hi : i.wf = true) :
    leNat (encode m i) =
      (m.byte i.opcode).toNat + 2 ^ 8 * (i.fieldB + 2 ^ i.opcode.layout.bWidth * i.fieldC) := by
  obtain ⟨hb, hc⟩ := (wf_iff_layout i).1 hi
  rw [encode, leNat_encodeFields, packFields_eq_join, toNat_emod_two_pow_of_lt (m.byte i.opcode).isLt,
    toNat_emod_two_pow_of_lt hb, toNat_emod_two_pow_of_lt hc]

/-- A decoded instruction is well-formed: its fields were cut out by their widths (30_encoding.md R76). -/
theorem decode_wf {m : OpcodeMap} {bytes rest : List Byte} {i : Instr} (h : decode m bytes = .instr i rest) :
    i.wf = true := by
  obtain ⟨op, tail, -, -, -, hb, hc, -⟩ := decode_instr_iff.1 h
  rw [wf_iff_layout, hb, hc]
  exact ⟨bitField_lt _ _ _, bitField_lt _ _ _⟩

/-- Settles O5: the fields cut out of the bytes, joined again, are the bits below the top of field C. -/
theorem encodeOfDecodeClearsUnusedBits : Obligations.EncodeOfDecodeClearsUnusedBits := by
  intro m bytes rest i h
  obtain ⟨op, tail, rfl, hop, hlen, hb, hc, rfl⟩ := decode_instr_iff.1 h
  refine ⟨decode_wf h, (List.take_append_drop _ _).symm, List.length_take_of_le hlen, ?_⟩
  obtain ⟨w, hw⟩ := Nat.exists_eq_add_of_lt (width_pos i.opcode)
  have hA : leNat ((op :: tail).take i.width) % 2 ^ 8 = (m.byte i.opcode).toNat := by
    rw [byte_of_opcode hop, Instr.width, hw, Nat.zero_add, List.take_succ_cons]
    exact decodeFields_cons_fst i.opcode op _
  rw [leNat_encode (decode_wf h), mod_eq_join_fields, hA, hb, hc]
  rfl

/-- A field that ends below bit `k` does not see bit `k` or any above it. -/
theorem bitField_mod {lo w k : Nat} (hk : lo + w ≤ k) (n : Nat) : bitField (n % 2 ^ k) lo w = bitField n lo w := by
  have hcut : ∀ x, bitField x lo w = x % 2 ^ (lo + w) / 2 ^ lo := fun x => by
    rw [bitField, Nat.shiftRight_eq_div_pow, pow_add, Nat.mod_mul_right_div_self]
  rw [hcut, hcut, Nat.mod_mod_of_dvd _ (Nat.pow_dvd_pow 2 hk)]

/-- Settles O6: the fields are functions of the bits up to the top of field C. -/
theorem unusedBitsAreIgnored : Obligations.UnusedBitsAreIgnored := by
  intro m o op x y rest ho hx hy hxy
  have hB : o.layout.bOff + o.layout.bWidth ≤ o.layout.cOff + o.layout.cWidth := by
    rw [layout_bOff, layout_cOff]
    omega
  have hfieldB := congrArg (bitField · o.layout.bOff o.layout.bWidth) hxy
  have hfieldC := congrArg (bitField · o.layout.cOff o.layout.cWidth) hxy
  simp only [bitField_mod hB, bitField_mod (Nat.le_refl _)] at hfieldB hfieldC
  rw [decode_append ho hx, decode_append ho hy]
  simp only [decodeFields, hfieldB, hfieldC]

/-- Settles O8: each word's opcode and length, then its two slices, computed. -/
theorem workedExamplesDecode : Obligations.WorkedExamplesDecode := by
  unfold Obligations.WorkedExamplesDecode
  decide

end Sys2Proof.Machine

/-!
SUPPORT. The four instructions (41_data_movement.md, 42_alu_sqrt.md): the integer square root, when the checks of an instruction
pass and which fault comes first when they do not, and what an instruction that completes leaves behind.
-/

namespace Sys2Proof.Machine

/-! ### The integer square root -/

/-- One digit takes the root of `v / 4` to the root of `v`. -/
theorem isqrtDigit_sqrt (v : Nat) : isqrtDigit v (2 * (v / 4).sqrt) = v.sqrt := by
  obtain ⟨hlow, hhigh⟩ := Nat.eq_sqrt.1 (rfl : (v / 4).sqrt = (v / 4).sqrt)
  generalize (v / 4).sqrt = q at *
  have hle : 4 * (q * q) ≤ v := by omega
  have hlt : v < 4 * ((q + 1) * (q + 1)) := by omega
  rw [Nat.eq_sqrt, isqrtDigit]
  split_ifs with h
  · exact ⟨h, by linarith⟩
  · exact ⟨by linarith, Nat.lt_of_not_le h⟩

/-- With a digit of fuel for every two bits, the root found is the root. -/
theorem isqrtFuel_eq_sqrt {fuel v : Nat} (h : v < 4 ^ fuel) : isqrtFuel fuel v = v.sqrt := by
  induction fuel generalizing v with
  | zero =>
    obtain rfl : v = 0 := by omega
    rfl
  | succ fuel ih =>
    have hv : v / 4 < 4 ^ fuel := by rw [pow_succ] at h; omega
    rw [isqrtFuel, ih hv, isqrtDigit_sqrt]

/-- The model's root is the library's. -/
theorem isqrt_eq_sqrt (v : Nat) : isqrt v = v.sqrt := by
  apply isqrtFuel_eq_sqrt
  calc v < 2 ^ (v.log2 + 1) := Nat.lt_log2_self
    _ ≤ 2 ^ (2 * (v.log2 / 2 + 1)) := Nat.pow_le_pow_right (by decide) (by omega)
    _ = 4 ^ (v.log2 / 2 + 1) := pow_mul 2 2 _

/-- Settles O24: the digits build the library's root, whose law this is. -/
theorem isqrtIsTheGreatestRoot : Obligations.IsqrtIsTheGreatestRoot := by
  intro v r
  rw [isqrt_eq_sqrt, Nat.le_sqrt]

/-- The root of an integer that is not negative is the greatest whose square it holds. -/
theorem isqrt_toNat_bounds {v : Int} (hv : 0 ≤ v) :
    (isqrt v.toNat : Int) * isqrt v.toNat ≤ v ∧ v < ((isqrt v.toNat : Int) + 1) * (isqrt v.toNat + 1) := by
  obtain ⟨n, rfl⟩ := Int.eq_ofNat_of_zero_le hv
  rw [Int.toNat_natCast, isqrt_eq_sqrt]
  exact ⟨by exact_mod_cast Nat.sqrt_le n, by exact_mod_cast Nat.lt_succ_sqrt n⟩

/-! ### When the checks of an instruction pass -/

section Checks

variable {s : State} {b c : Nat}

theorem loadConst_passes : firstFault (checksOf (.loadConst b c) s) = none ↔ c < s.config.regCount := by
  simp [firstFault_eq_none, checksOf, regCheck_eq_none]

theorem loadMem_passes :
    firstFault (checksOf (.loadMem b c) s) = none ↔ b < s.config.memSize ∧ c < s.config.regCount := by
  simp [firstFault_eq_none, checksOf, regCheck_eq_none, memCheck_eq_none]

theorem storeMem_passes :
    firstFault (checksOf (.storeMem b c) s) = none ↔ b < s.config.regCount ∧ c < s.config.memSize := by
  simp [firstFault_eq_none, checksOf, regCheck_eq_none, memCheck_eq_none]

theorem sqrt_passes :
    firstFault (checksOf (.sqrt b c) s) = none ↔
      c < s.config.regCount ∧ 0 ≤ s.readReg c ∧ b < s.config.regCount := by
  simp [firstFault_eq_none, checksOf, regCheck_eq_none, signCheck_eq_none]

end Checks

theorem exec_of_pass {i : Instr} {s : State} (h : firstFault (checksOf i s) = none) : exec i s = .next (effect i s) := by
  rw [exec_eq_commit, commit, h]

theorem exec_of_fault {i : Instr} {s : State} {f : Fault} (h : firstFault (checksOf i s) = some f) :
    exec i s = .next (s.latched f) := by
  rw [exec_eq_commit, commit, h]
  rfl

/-! ### What an instruction that completes leaves behind -/

/-- The frame of an instruction that names a register. -/
theorem effect_register_frame {i : Instr} (s : State) {d : Nat} (hd : destReg? i = some d) (hm : destMem? i = none) :
    (∀ r, r ≠ d → (effect i s).readReg r = s.readReg r) ∧ ∀ a, (effect i s).readMem a = s.readMem a :=
  ⟨fun _ hr => effect_readReg_other s (by simpa [hd] using hr.symm), fun _ => effect_readMem_other s (by simp [hm])⟩

/-- The frame of an instruction that names a memory cell. -/
theorem effect_memory_frame {i : Instr} (s : State) {d : Nat} (hd : destMem? i = some d) (hr : destReg? i = none) :
    (∀ r, (effect i s).readReg r = s.readReg r) ∧ ∀ a, a ≠ d → (effect i s).readMem a = s.readMem a :=
  ⟨fun _ => effect_readReg_other s (by simp [hr]), fun _ ha => effect_readMem_other s (by simpa [hd] using ha.symm)⟩

section Completes

variable {i : Instr} {s : State} {d : Nat} (hwf : s.wf = true) (hpass : firstFault (checksOf i s) = none)
include hwf hpass

/-- An instruction that names a register, its checks passed: it writes its integer there and changes nothing else but pc. -/
theorem exec_completes_register (hd : destReg? i = some d) (hm : destMem? i = none) :
    ∃ t, exec i s = .next t ∧ t.readReg d = written i s ∧ (∀ r, r ≠ d → t.readReg r = s.readReg r) ∧
      (∀ a, t.readMem a = s.readMem a) ∧ t.pc = s.pc + i.width ∧ t.latch = s.latch ∧ t.program = s.program ∧
      t.config = s.config := by
  obtain ⟨-, hregs, -⟩ := wf_parts hwf
  obtain ⟨hother, hmem⟩ := effect_register_frame s hd hm
  exact ⟨effect i s, exec_of_pass hpass, effect_readReg_dest hregs hd, hother, hmem, by simp⟩

/-- An instruction that names a memory cell, its checks passed: it writes its integer there and changes nothing else but pc. -/
theorem exec_completes_memory (hd : destMem? i = some d) (hr : destReg? i = none) :
    ∃ t, exec i s = .next t ∧ t.readMem d = written i s ∧ (∀ a, a ≠ d → t.readMem a = s.readMem a) ∧
      (∀ r, t.readReg r = s.readReg r) ∧ t.pc = s.pc + i.width ∧ t.latch = s.latch ∧ t.program = s.program ∧
      t.config = s.config := by
  obtain ⟨-, -, hmem, -⟩ := wf_parts hwf
  obtain ⟨hregs, hother⟩ := effect_memory_frame s hd hr
  exact ⟨effect i s, exec_of_pass hpass, effect_readMem_dest hmem hd, hother, hregs, by simp⟩

end Completes

/-! ### The statements about completion -/

/-- Settles O20: its one check passes, and the constant is what it writes. -/
theorem loadConstWritesTheConstant : Obligations.LoadConstWritesTheConstant :=
  fun _ _ _ hwf hc => exec_completes_register hwf (loadConst_passes.2 hc) rfl rfl

/-- Settles O21: both checks pass, and the cell's integer is what it writes. -/
theorem loadMemCopiesTheCell : Obligations.LoadMemCopiesTheCell :=
  fun _ _ _ hwf hb hc => exec_completes_register hwf (loadMem_passes.2 ⟨hb, hc⟩) rfl rfl

/-- Settles O22: both checks pass, and the register's integer is what it writes. -/
theorem storeMemCopiesTheRegister : Obligations.StoreMemCopiesTheRegister :=
  fun _ _ _ hwf hb hc => exec_completes_memory hwf (storeMem_passes.2 ⟨hb, hc⟩) rfl rfl

/-- Settles O23: all three checks pass, and the integer root of the source is what it writes. -/
theorem sqrtWritesTheIntegerRoot : Obligations.SqrtWritesTheIntegerRoot := by
  intro s b c hwf hb hc hv
  obtain ⟨t, ht, hroot, hframe⟩ := exec_completes_register (d := b) hwf (sqrt_passes.2 ⟨hc, hv, hb⟩) rfl rfl
  obtain ⟨hlow, hhigh⟩ := isqrt_toNat_bounds hv
  refine ⟨t, ht, ?_⟩
  rw [hroot]
  exact ⟨Int.natCast_nonneg _, hlow, hhigh, hframe⟩

/-- Settles O29: the store's cell is read back by the load, and the load writes no memory. -/
theorem storeThenLoadReturnsTheValue : Obligations.StoreThenLoadReturnsTheValue := by
  intro s r a q hwf hr ha hq
  obtain ⟨-, hregs, hmem, -⟩ := wf_parts hwf
  have hstored : (effect (.storeMem r a) s).readMem a = s.readReg r := effect_readMem_dest hmem rfl
  refine ⟨_, effect (.loadMem a q) (effect (.storeMem r a) s), exec_of_pass (storeMem_passes.2 ⟨hr, ha⟩),
    exec_of_pass (loadMem_passes.2 ⟨ha, hq⟩), ?_, ?_⟩
  · exact (effect_readReg_dest (i := .loadMem a q) (s := effect (.storeMem r a) s) hregs rfl).trans hstored
  · exact (effect_readMem_other _ (by simp [destMem?])).trans hstored

theorem nonneg_iff {s : State} :
    s.nonneg = true ↔ Cells.all (fun v => decide (0 ≤ v)) s.regs = true ∧
      Cells.all (fun v => decide (0 ≤ v)) s.mem = true := by
  rw [State.nonneg, Bool.and_eq_true]

theorem nonneg_readReg {s : State} (h : s.nonneg = true) (r : Nat) : 0 ≤ s.readReg r := by
  obtain ⟨hregs, -⟩ := nonneg_iff.1 h
  exact of_decide_eq_true (cells_all_read hregs rfl r)

/-- Settles O27: a register field has 7 bits, so every register index is below 256, and no operand is negative. -/
theorem defaultCoreCompletes : Obligations.DefaultCoreCompletes := by
  intro s i hr hm hnonneg hl hi hload hstore
  obtain ⟨hb, hc⟩ := (wf_iff_layout i).1 hi
  have hpass : firstFault (checksOf i s) = none := by
    have hreg : ∀ {r : Nat}, r < 2 ^ 7 → r < s.config.regCount := fun h => by omega
    cases i with
    | loadConst b c => exact loadConst_passes.2 (hreg hc)
    | loadMem b c => exact loadMem_passes.2 ⟨hm ▸ hload b c rfl, hreg hc⟩
    | storeMem b c => exact storeMem_passes.2 ⟨hreg hb, hm ▸ hstore b c rfl⟩
    | sqrt b c => exact sqrt_passes.2 ⟨hreg hc, nonneg_readReg hnonneg c, hreg hb⟩
  exact ⟨effect i s, exec_of_pass hpass, by simpa using hl, effect_pc i s⟩

/-! ### The statements about operand faults -/

/-- Settles O25: each instruction's first failing check, the ones before it passed. -/
theorem dataMovementOperandFaults : Obligations.DataMovementOperandFaults := by
  intro s b c
  refine ⟨fun hc => exec_of_fault ?_, fun hb => exec_of_fault ?_, fun hb hc => exec_of_fault ?_,
    fun hb => exec_of_fault ?_, fun hb hc => exec_of_fault ?_⟩
  · rw [checksOf, regCheck_of_ge hc]; rfl
  · rw [checksOf, memCheck_of_ge hb]; rfl
  · rw [checksOf, memCheck_of_lt hb, regCheck_of_ge hc]; rfl
  · rw [checksOf, regCheck_of_ge hb]; rfl
  · rw [checksOf, regCheck_of_lt hb, memCheck_of_ge hc]; rfl

/-- Settles O26: the source index, the sign and the destination index, each with the checks before it passed. -/
theorem sqrtOperandFaults : Obligations.SqrtOperandFaults := by
  intro s b c
  refine ⟨fun hc => exec_of_fault ?_, fun hc hv => exec_of_fault ?_, fun hc hv hb => exec_of_fault ?_⟩
  · rw [checksOf, regCheck_of_ge hc]; rfl
  · rw [checksOf, regCheck_of_lt hc, signCheck_of_neg hv]; rfl
  · rw [checksOf, regCheck_of_lt hc, signCheck_of_nonneg hv, regCheck_of_ge hb]; rfl

/-! ### The decoder block and its datapath -/

/-- A window of six bytes holds every byte of an instruction that is wholly there, whatever pads it. -/
theorem take_window {bytes : List Byte} {o : Opcode} (h : o.width ≤ bytes.length) (padding : List Byte) :
    ((bytes ++ padding).take 6).take o.width = bytes.take o.width := by
  have hw : o.width ≤ 6 := by cases o <;> decide
  rw [List.take_take, Nat.min_eq_left hw, List.take_append_of_le_length h]

/-- The block's answer to each answer of the decoder on a string that is not empty. -/
def blockOutputOf : Decoded → Option BlockOutput
  | .instr i _ => some (.drive (ports i))
  | .endOfProgram => none
  | .unknownOpcode op => some (.unknownOpcode op)
  | .truncated op n => some (.truncated op n)

/-- The block looks at the opcode, the bytes left and the fields, as the decoder does. -/
theorem decoderBlock_eq (m : OpcodeMap) (op : Byte) (tail padding : List Byte) :
    some (decoderBlock m ((op :: tail ++ padding).take 6) (op :: tail).length) =
      blockOutputOf (decode m (op :: tail)) := by
  have hhead : ((op :: tail ++ padding).take 6).headD 0 = op := rfl
  simp only [decoderBlock, hhead, decode]
  cases m.opcode? op with
  | none => rfl
  | some o =>
    by_cases hl : (op :: tail).length < o.width
    · simp only [if_pos hl, blockOutputOf]
    · simp only [if_neg hl, blockOutputOf, take_window (Nat.le_of_not_lt hl)]

/-- Settles O46: the block's answer is the decoder's, row by row. -/
theorem decoderBlockAgreesWithDecode : Obligations.DecoderBlockAgreesWithDecode := by
  intro m bytes padding hne
  obtain ⟨op, tail, rfl⟩ := List.exists_cons_of_ne_nil hne
  have hblock := decoderBlock_eq m op tail padding
  refine ⟨fun i rest h => ?_, fun b h => ?_, fun b n h => ?_⟩ <;>
    · rw [h] at hblock
      exact Option.some.inj hblock

/-- Settles O47: each row of the port table names the checks, the read port, the result and the write port of its
instruction. -/
theorem datapathDoesWhatExecDoes : Obligations.DatapathDoesWhatExecDoes := by
  intro i s
  cases i <;> rfl

end Sys2Proof.Machine

/-!
SUPPORT. The step and its decoder (40_decode_dispatch.md sections 1 and 2): the row of the dispatch table a byte selects, the
instruction cut off by the end of the program, where a step stops, how a run ends, what the host's operations keep
(60_exceptions.md section 4), and the halted core.
-/

namespace Sys2Proof.Machine

/-! ### The fetch at a legal opcode -/

/-- Settles O11: the decoder's fields are within their widths, and the step is the instruction. -/
theorem stepRunsTheDecodedInstruction : Obligations.StepRunsTheDecodedInstruction :=
  fun _ _ _ hl hd => ⟨decode_wf hd, step_of_decode hl hd⟩

theorem decode_truncated {m : OpcodeMap} {o : Opcode} {op : Byte} {tail : List Byte} (ho : m.opcode? op = some o)
    (hlen : (op :: tail).length < o.width) : decode m (op :: tail) = .truncated op (op :: tail).length := by
  simp only [decode, ho, if_pos hlen]

theorem step_of_raises {s : State} {f : Fault} (h : fetch s = .raises f) : step s = .next (s.latched f) := by
  simp [step, h, raise]

section LegalOpcode

variable {s : State} {o : Opcode} (hl : s.latch = none) (hp : s.pc < s.plen)
  (ho : s.config.opcodes.opcode? (s.byteAt s.pc) = some o)
include hl hp ho

/-- A legal opcode with its bytes inside the program runs its instruction on the slices of `LE(pc, W)` (R95, R96). -/
theorem step_of_opcode (hend : s.pc + o.width ≤ s.plen) :
    step s = exec (o.instr
      (bits (s.le s.pc o.width) (o.layout.bOff + o.layout.bWidth - 1) o.layout.bOff)
      (bits (s.le s.pc o.width) (o.layout.cOff + o.layout.cWidth - 1) o.layout.cOff)) s := by
  obtain ⟨tail, htail⟩ := fetchBytes_cons s hp
  have hlen : o.width ≤ (s.byteAt s.pc :: tail).length := by
    rw [← htail, State.fetchBytes, List.length_drop]
    exact Nat.le_sub_of_add_le' hend
  have hd := decode_whole ho hlen
  rw [← htail] at hd
  rw [step_of_decode hl hd, decodeFields, leNat_take_eq_le s _ hend,
    bits_eq_bitField (w := o.layout.bWidth) (by cases o <;> rfl),
    bits_eq_bitField (w := o.layout.cWidth) (by cases o <;> rfl)]

/-- A legal opcode whose instruction the program's end cuts off raises the fault that says so (R94, R143). -/
theorem step_of_truncated (hend : s.plen < s.pc + o.width) :
    step s = .next (s.latched (.truncatedInstruction s.pc (s.byteAt s.pc) (s.plen - s.pc))) := by
  obtain ⟨tail, htail⟩ := fetchBytes_cons s hp
  have hlen : (s.byteAt s.pc :: tail).length = s.plen - s.pc := by
    rw [← htail, State.fetchBytes, List.length_drop, State.plen]
  apply step_of_raises
  rw [fetch_of_clear hl, htail, decode_truncated ho (by omega), hlen, classify]

end LegalOpcode

/-- Settles O15: the length is checked after the opcode, and the bytes available are those up to the end. -/
theorem truncatedInstructionFaults : Obligations.TruncatedInstructionFaults :=
  fun _ _ hl hp ho hend => step_of_truncated hl hp ho hend

/-- Settles O12: each legal byte selects its row, and any other byte none. -/
theorem dispatchTable : Obligations.DispatchTable := by
  intro s hl hm hp
  have hop : ∀ {b : Byte} {o : Opcode}, s.byteAt s.pc = b → OpcodeMap.default.opcode? b = some o →
      s.config.opcodes.opcode? (s.byteAt s.pc) = some o := fun hb ho => by rw [hm, hb, ho]
  refine ⟨fun hb he => ?_, fun hb he => ?_, fun hb he => ?_, fun hb he => ?_, fun h1 h2 h3 h4 => ?_⟩
  · exact step_of_opcode (o := .loadConst) hl hp (hop hb rfl) he
  · exact step_of_opcode (o := .loadMem) hl hp (hop hb rfl) he
  · exact step_of_opcode (o := .storeMem) hl hp (hop hb rfl) he
  · exact step_of_opcode (o := .sqrt) hl hp (hop hb rfl) he
  · have hnone : ∀ o, s.byteAt s.pc ≠ s.config.opcodes.byte o := by
      rw [hm]
      intro o
      cases o with
      | loadConst => exact h1
      | loadMem => exact h2
      | storeMem => exact h3
      | sqrt => exact h4
    exact step_of_raises (fetch_unknownOpcode hl hp hnone)

/-! ### Where a step stops -/

/-- Settles O16: of what a step can do, only the step of a latched core answers no next state. -/
theorem stepStopsOnlyOnALatchedFault : Obligations.StepStopsOnlyOnALatchedFault := by
  intro s
  have hsignal : ∃ sig t, hostStep s = some (sig, t) := by
    rcases hostStep_stops_or_continues s with ⟨sig, t, hs, -⟩ | ⟨t, hs⟩ <;> exact ⟨_, _, hs⟩
  have hstops : (∀ r, step s ≠ .refused r) ∧ ∀ f, step s = .fault f ↔ s.latch = some f := by
    rcases step_cases s with ⟨f, hl, hs⟩ | ⟨hl, -, hs⟩ | ⟨f, hl, -, hs⟩ | ⟨i, rest, hl, -, -, hs⟩ <;> simp [hs, hl]
  exact ⟨hstops.1, hstops.2, fun f hf => hostStep_of_latched hf, hsignal⟩

/-- Settles O17: the instruction's effect, with its frame, or the latched fault, which changes no cell. -/
theorem executeAndCommit : Obligations.ExecuteAndCommit := by
  intro s i rest hl hd
  rcases hostStep_cases s with ⟨f, hf, -⟩ | ⟨-, hp, -⟩ | ⟨f, -, -, hs⟩ | ⟨i', rest', -, hd', -, -, hs⟩
  · simp [hl] at hf
  · have hin := decoded_inside hd
    have hw := three_le_width i
    omega
  · exact .inr ⟨f, s.latched f, hs, rfl, rfl, rfl⟩
  · obtain ⟨rfl, rfl⟩ : i' = i ∧ rest' = rest := by simpa using hd'.symm.trans hd
    refine .inl ⟨effect i' s, hs, effect_pc i' s, ?_⟩
    cases i' with
    | loadConst b c => exact effect_register_frame s rfl rfl
    | loadMem b c => exact effect_register_frame s rfl rfl
    | storeMem b c => exact effect_memory_frame s rfl rfl
    | sqrt b c => exact effect_register_frame s rfl rfl

/-! ### The end of a run -/

/-- A run under fuel that reaches the end of the program answers halted or a fault (R101). -/
theorem runFuel_ends {s : State} {fuel : Nat} (h : (s.plen - s.pc) / 3 + 1 ≤ fuel) :
    ∃ sig t, runFuel fuel s = some (sig, t) ∧ sig ≠ .continuing := by
  induction fuel generalizing s with
  | zero => omega
  | succ fuel ih =>
    rcases hostStep_stops_or_continues s with ⟨sig, t, hs, hsig⟩ | ⟨t, hs⟩
    · exact ⟨sig, t, runFuel_stopped fuel hs hsig, hsig⟩
    · obtain ⟨hplen, hstep, hend⟩ := hostStep_continuing_advances hs
      rw [runFuel_continuing fuel hs]
      exact ih (by omega)

/-- Settles O34: the run's own fuel reaches the end of the program, and so does any fuel of the bound. -/
theorem everyRunEnds : Obligations.EveryRunEnds :=
  fun s => ⟨runFuel_ends (s := s) (by omega), fun _ h => runFuel_eq_run h⟩

/-- A run under fuel answers what its last step answers. -/
theorem runFuel_last_step {fuel : Nat} {s t : State} {sig : Signal} (h : runFuel fuel s = some (sig, t)) :
    ∃ u, hostStep u = some (sig, t) ∧ sig ≠ .continuing := by
  induction fuel generalizing s with
  | zero => simp [runFuel] at h
  | succ fuel ih =>
    rcases hostStep_stops_or_continues s with ⟨sig', t', hs, hsig⟩ | ⟨t', hs⟩
    · rw [runFuel_stopped fuel hs hsig] at h
      cases h
      exact ⟨s, hs, hsig⟩
    · rw [runFuel_continuing fuel hs] at h
      exact ih h

theorem endedWell_iff {s : State} : s.endedWell = true ↔ s.plen ≤ s.pc ∧ s.latch = none := by
  simp [State.endedWell]

/-- Settles O35: the last step halted with pc at the end and no fault latched, or it answered the fault now latched. -/
theorem runEndsWellOrFaults : Obligations.RunEndsWellOrFaults := by
  intro s t sig h
  obtain ⟨u, hu, hsig⟩ := runFuel_last_step h
  rw [endedWell_iff]
  rcases hostStep_cases u with ⟨f, hl, hs⟩ | ⟨hl, hp, hs⟩ | ⟨f, -, -, hs⟩ | ⟨i, rest, -, -, -, -, hs⟩ <;>
    rw [hs] at hu <;> cases hu
  · simp [hl]
  · simp [hl, hp]
  · simp
  · exact absurd rfl hsig

/-! ### What every step keeps, the host's operations keep -/

/-- The state after the host's step is the state before it or the next state of the step. -/
theorem hostStep_next {s t : State} {sig : Signal} (h : hostStep s = some (sig, t)) : t = s ∨ step s = .next t := by
  unfold hostStep at h
  cases hs : step s <;> rw [hs] at h <;> cases h
  · exact .inr rfl
  · exact .inl rfl

/-- What every step keeps, a run keeps. -/
theorem runFuel_keeps {P : State → Prop} (hstep : ∀ s t, P s → step s = .next t → P t) {fuel : Nat} {s t : State}
    {sig : Signal} (hs : P s) (h : runFuel fuel s = some (sig, t)) : P t := by
  have hkeep : ∀ {u v sig}, P u → hostStep u = some (sig, v) → P v := fun {u v sig} hu hv => by
    rcases hostStep_next hv with rfl | hn
    · exact hu
    · exact hstep u v hu hn
  induction fuel generalizing s with
  | zero => simp [runFuel] at h
  | succ fuel ih =>
    rcases hostStep_stops_or_continues s with ⟨sig', t', ht, hsig⟩ | ⟨t', ht⟩
    · rw [runFuel_stopped fuel ht hsig] at h
      cases h
      exact hkeep hs ht
    · rw [runFuel_continuing fuel ht] at h
      exact ih (hkeep hs ht) h

theorem signalReply_keeps {P : State → Prop} {s : State} {r : Option (Signal × State)} (hs : P s)
    (hr : ∀ sig t, r = some (sig, t) → P t) : P (signalReply s r).2 := by
  cases r with
  | none => exact hs
  | some st => exact hr st.1 st.2 rfl

/-- What holds of a state and of the state a host access makes of it holds whether the access is done or refused. -/
theorem guarded_access {P : State → Prop} {s t : State} {guard : Bool} {reply : HostReply} (hs : P s)
    (ht : guard = true → P t) : P (if guard then (reply, t) else (HostReply.refused, s)).2 := by
  cases guard with
  | false => exact hs
  | true => exact ht rfl

theorem inArray_iff {size : Nat} {i : Int} : inArray size i = true ↔ 0 ≤ i ∧ i < size := by simp [inArray]

/-- The guard of a host write lets an index of the array and an integer that fits through. -/
theorem write_guard {c : Config} {size : Nat} {i v : Int} (h : (inArray size i && fits c v) = true) :
    i.toNat < size ∧ fits c v = true := by
  rw [Bool.and_eq_true, inArray_iff] at h
  obtain ⟨⟨hlow, hhigh⟩, hv⟩ := h
  exact ⟨by omega, hv⟩

/-- What `load`, every step and every admitted write of a cell keep, every host operation keeps. -/
theorem hostApply_keeps {P : State → Prop} {op : HostOp} {s : State} (hs : P s)
    (hload : ∀ p, op = .load p → P (s.load p)) (hstep : ∀ u t, P u → step u = .next t → P t)
    (hreg : ∀ r v, r < s.config.regCount → fits s.config v = true → P (s.writeReg r v))
    (hmem : ∀ a v, a < s.config.memSize → fits s.config v = true → P (s.writeMem a v)) : P (hostApply op s).2 := by
  cases op with
  | load p => exact hload p rfl
  | step =>
    refine signalReply_keeps hs fun sig t ht => ?_
    rcases hostStep_next ht with rfl | hn
    · exact hs
    · exact hstep s t hs hn
  | run => exact signalReply_keeps hs fun sig t ht => runFuel_keeps hstep hs ht
  | readReg i => exact guarded_access hs fun _ => hs
  | readMem a => exact guarded_access hs fun _ => hs
  | writeReg i v =>
    refine guarded_access hs fun h => ?_
    obtain ⟨hi, hv⟩ := write_guard h
    exact hreg _ v hi hv
  | writeMem a v =>
    refine guarded_access hs fun h => ?_
    obtain ⟨ha, hv⟩ := write_guard h
    exact hmem _ v ha hv
  | readPC => exact hs

/-! ### The halted core -/

theorem step_halted {s : State} (hl : s.latch = none) (hp : s.plen ≤ s.pc) : step s = .next s := by
  have hend : decode s.config.opcodes s.fetchBytes = .endOfProgram :=
    decode_endOfProgram_iff.2 (List.drop_eq_nil_of_le hp)
  simp [step, fetch_of_clear hl, hend, classify]

/-- Settles O13: the decoder finds no byte at pc, and the empty program has none. -/
theorem haltedStepChangesNothing : Obligations.HaltedStepChangesNothing :=
  ⟨fun _ hl hp => ⟨step_halted hl hp, hostStep_halted hl hp⟩,
    fun s => hostStep_halted (load_latch s []) (Nat.le_refl 0)⟩

/-- Settles O37: the fields of the power-on state, whose program is empty. -/
theorem powerOnHalts : Obligations.PowerOnHalts :=
  ⟨rfl, rfl, rfl, rfl, rfl, hostStep_halted rfl (Nat.le_refl 0)⟩

/-- The state holds the pc, the program and the latch of another. -/
def SameControl (s t : State) : Prop := t.latch = s.latch ∧ t.pc = s.pc ∧ t.program = s.program

theorem sameControl_refl (s : State) : SameControl s s := ⟨rfl, rfl, rfl⟩

/-- On a halted core every host operation but `load` keeps pc, program and latch: a step halts, and the writes touch none of
them. -/
theorem hostApply_of_halted {s : State} {op : HostOp} (hl : s.latch = none) (hp : s.plen ≤ s.pc)
    (hop : ∀ p, op ≠ .load p) : SameControl s (hostApply op s).2 := by
  refine hostApply_keeps (sameControl_refl s) (fun p h => absurd h (hop p)) (fun u t hu h => ?_)
    (fun _ _ _ _ => ⟨rfl, rfl, rfl⟩) (fun _ _ _ _ => ⟨rfl, rfl, rfl⟩)
  obtain ⟨hlatch, hpc, hprogram⟩ := hu
  have hend : u.plen ≤ u.pc := by rwa [State.plen, hprogram, hpc]
  rw [step_halted (hlatch.trans hl) hend] at h
  cases h
  exact ⟨hlatch, hpc, hprogram⟩

/-- Settles O32: pc, program and latch are kept, so the core is halted still. -/
theorem haltedIsStable : Obligations.HaltedIsStable := by
  intro s op hl hp hop
  obtain ⟨hlatch, hpc, hprogram⟩ := hostApply_of_halted hl hp hop
  have hclear := hlatch.trans hl
  refine ⟨hclear, hpc, hprogram, hostStep_halted hclear ?_⟩
  rwa [State.plen, hprogram, hpc]

end Sys2Proof.Machine

/-!
SUPPORT. The invariants (10_state.md sections 1 and 3, 60_exceptions.md section 4): what an instruction that completes makes of
the two arrays, and from it the well-formed states, the cells that hold no negative value, the instruction boundaries and the
cell width under every step and every host operation.
-/

namespace Sys2Proof.Machine

/-! ### The arrays after an instruction that completes -/

/-- An instruction whose checks pass names a cell inside its array. -/
theorem dest_inside {i : Instr} {s : State} (h : firstFault (checksOf i s) = none) :
    (∀ r, destReg? i = some r → r < s.config.regCount) ∧ ∀ a, destMem? i = some a → a < s.config.memSize := by
  cases i with
  | loadConst b c => exact ⟨fun r hr => by cases hr; exact loadConst_passes.1 h, nofun⟩
  | loadMem b c => exact ⟨fun r hr => by cases hr; exact (loadMem_passes.1 h).2, nofun⟩
  | storeMem b c => exact ⟨nofun, fun a ha => by cases ha; exact (storeMem_passes.1 h).2⟩
  | sqrt b c => exact ⟨fun r hr => by cases hr; exact (sqrt_passes.1 h).2.2, nofun⟩

/-- The register file after an instruction: a write of the named register, if it names one. -/
theorem effect_regs (i : Instr) (s : State) :
    (effect i s).regs = (destReg? i).elim s.regs fun r => Cells.write s.regs r (written i s) := by
  cases i <;> rfl

/-- The memory after an instruction: a write of the named cell, if it names one. -/
theorem effect_mem (i : Instr) (s : State) :
    (effect i s).mem = (destMem? i).elim s.mem fun a => Cells.write s.mem a (written i s) := by
  cases i <;> rfl

/-- An instruction whose checks pass keeps both arrays in canonical form and inside their sizes. -/
theorem effect_keeps_arrays {i : Instr} {s : State} (h : firstFault (checksOf i s) = none)
    (hregs : RegFile.wf s.config.regCount s.regs = true) (hmem : Memory.wf s.config.memSize s.mem = true) :
    RegFile.wf s.config.regCount (effect i s).regs = true ∧ Memory.wf s.config.memSize (effect i s).mem = true := by
  obtain ⟨hreg, hcell⟩ := dest_inside h
  rw [effect_regs, effect_mem]
  constructor
  · cases hd : destReg? i with
    | none => exact hregs
    | some r => exact regFile_wf_write hregs (hreg r hd)
  · cases hd : destMem? i with
    | none => exact hmem
    | some a => exact memory_wf_write hmem (hcell a hd)

section Admitted

variable {p : Int → Bool} {i : Instr} {s : State}

/-- The integer an instruction writes is admitted if 0, its constant, and the roots of admitted integers are. -/
theorem written_admitted (h0 : p 0 = true) (hconst : ∀ b c, i = .loadConst b c → p b = true)
    (hroot : ∀ v, p v = true → p (isqrt v.toNat) = true) (hregs : Cells.all p s.regs = true)
    (hmem : Cells.all p s.mem = true) : p (written i s) = true := by
  cases i with
  | loadConst b c => exact hconst b c rfl
  | loadMem b c => exact cells_all_read hmem h0 b
  | storeMem b c => exact cells_all_read hregs h0 b
  | sqrt b c => exact hroot _ (cells_all_read hregs h0 c)

/-- An instruction that writes an admitted integer keeps every cell admitted. -/
theorem effect_keeps_all (hw : p (written i s) = true) (hregs : Cells.all p s.regs = true)
    (hmem : Cells.all p s.mem = true) :
    Cells.all p (effect i s).regs = true ∧ Cells.all p (effect i s).mem = true := by
  rw [effect_regs, effect_mem]
  constructor
  · cases destReg? i with
    | none => exact hregs
    | some r => exact cells_all_write hregs hw
  · cases destMem? i with
    | none => exact hmem
    | some a => exact cells_all_write hmem hw

end Admitted

/-! ### What fits a cell -/

theorem fits_iff {c : Config} {v : Int} :
    fits c v = true ↔ ∀ n, c.cellBits = some n → -2 ^ (n - 1) ≤ v ∧ v < 2 ^ (n - 1) := by
  cases hc : c.cellBits <;> simp [fits, hc]

theorem fits_zero (c : Config) : fits c 0 = true :=
  fits_iff.2 fun n _ => ⟨neg_nonpos.2 (by positivity), by positivity⟩

/-- A constant of 27 bits fits every cell that is admitted (92_eei_decisions.md D2). -/
theorem fits_constant {c : Config} (hc : c.wf = true) {b : Nat} (hb : b < 2 ^ 27) : fits c b = true := by
  refine fits_iff.2 fun n hn => ?_
  have hn28 : 28 ≤ n := by
    simp only [Config.wf, hn, Bool.and_eq_true, decide_eq_true_eq] at hc
    exact hc.1.2
  have hp : (2 : Int) ^ 27 ≤ 2 ^ (n - 1) := pow_le_pow_right₀ (by decide) (by omega)
  constructor <;> omega

/-- The root of an integer that fits a cell fits it. -/
theorem fits_isqrt {c : Config} {v : Int} (hv : fits c v = true) : fits c (isqrt v.toNat) = true := by
  refine fits_iff.2 fun n hn => ?_
  obtain ⟨-, hhigh⟩ := fits_iff.1 hv n hn
  have hp : (0 : Int) < 2 ^ (n - 1) := by positivity
  have hle : isqrt v.toNat ≤ v.toNat := isqrt_eq_sqrt v.toNat ▸ Nat.sqrt_le_self v.toNat
  constructor <;> omega

/-! ### The well-formed states -/

theorem wf_iff {s : State} :
    s.wf = true ↔ s.config.wf = true ∧ RegFile.wf s.config.regCount s.regs = true ∧
      Memory.wf s.config.memSize s.mem = true ∧ Cells.all (fits s.config) s.regs = true ∧
      Cells.all (fits s.config) s.mem = true ∧ ∀ f, s.latch = some f → f.pc = s.pc := by
  cases hl : s.latch <;> simp [State.wf, hl, and_assoc]

theorem latched_wf {s : State} {f : Fault} (h : s.wf = true) (hf : f.pc = s.pc) : (s.latched f).wf = true := by
  obtain ⟨hconfig, hregs, hmem, hfitR, hfitM, -⟩ := wf_iff.1 h
  refine wf_iff.2 ⟨hconfig, hregs, hmem, hfitR, hfitM, fun g hg => ?_⟩
  cases hg
  exact hf

theorem load_wf {s : State} (h : s.wf = true) (p : List Byte) : (s.load p).wf = true := by
  obtain ⟨hconfig, hregs, hmem, hfitR, hfitM, -⟩ := wf_iff.1 h
  exact wf_iff.2 ⟨hconfig, hregs, hmem, hfitR, hfitM, by simp⟩

theorem writeReg_wf {s : State} {r : Nat} {v : Int} (h : s.wf = true) (hr : r < s.config.regCount)
    (hv : fits s.config v = true) : (s.writeReg r v).wf = true := by
  obtain ⟨hconfig, hregs, hmem, hfitR, hfitM, hlatch⟩ := wf_iff.1 h
  exact wf_iff.2 ⟨hconfig, regFile_wf_write hregs hr, hmem, cells_all_write hfitR hv, hfitM, hlatch⟩

theorem writeMem_wf {s : State} {a : Nat} {v : Int} (h : s.wf = true) (ha : a < s.config.memSize)
    (hv : fits s.config v = true) : (s.writeMem a v).wf = true := by
  obtain ⟨hconfig, hregs, hmem, hfitR, hfitM, hlatch⟩ := wf_iff.1 h
  exact wf_iff.2 ⟨hconfig, hregs, memory_wf_write hmem ha, hfitR, cells_all_write hfitM hv, hlatch⟩

/-- A well-formed instruction that completes with no fault latched keeps the state well-formed. -/
theorem effect_wf {i : Instr} {s : State} (hs : s.wf = true) (hl : s.latch = none) (hi : i.wf = true)
    (hpass : firstFault (checksOf i s) = none) : (effect i s).wf = true := by
  obtain ⟨hconfig, hregs, hmem, hfitR, hfitM, -⟩ := wf_iff.1 hs
  have hconst : ∀ b c, i = .loadConst b c → fits s.config b = true := by
    rintro b c rfl
    exact fits_constant hconfig ((wf_iff_layout _).1 hi).1
  obtain ⟨hregs', hmem'⟩ := effect_keeps_arrays hpass hregs hmem
  obtain ⟨hfitR', hfitM'⟩ := effect_keeps_all
    (written_admitted (fits_zero s.config) hconst (fun _ => fits_isqrt) hfitR hfitM) hfitR hfitM
  rw [wf_iff, effect_config, effect_latch, hl]
  exact ⟨hconfig, hregs', hmem', hfitR', hfitM', nofun⟩

/-- Settles O42: the step halts, latches a fault that records pc, or runs a well-formed instruction to its effect. -/
theorem stepKeepsWellFormed : Obligations.StepKeepsWellFormed := by
  intro s t hs h
  rcases step_cases s with ⟨f, -, hstep⟩ | ⟨-, -, hstep⟩ | ⟨f, -, hf, hstep⟩ | ⟨i, rest, hl, hd, hpass, hstep⟩ <;>
    rw [hstep] at h <;> cases h
  · exact hs
  · exact latched_wf hs hf
  · exact effect_wf hs hl (decode_wf hd) hpass

/-- Settles O43: `load`, every step and every admitted write of a cell keep the state well-formed. -/
theorem hostOperationsKeepWellFormed : Obligations.HostOperationsKeepWellFormed :=
  fun _ _ hs => hostApply_keeps (P := fun t => t.wf = true) hs (fun p _ => load_wf hs p) stepKeepsWellFormed
    (fun _ _ hr hv => writeReg_wf hs hr hv) (fun _ _ ha hv => writeMem_wf hs ha hv)

/-! ### Instruction boundaries -/

/-- Settles O44: a step that completes an instruction moves pc from where it was decoded by its width; every other step leaves
pc. -/
theorem pcStaysOnInstructionBoundaries : Obligations.PcStaysOnInstructionBoundaries := by
  refine ⟨fun _ _ => .entry, fun s t hs h => ?_⟩
  rcases step_cases s with ⟨f, -, hstep⟩ | ⟨-, -, hstep⟩ | ⟨f, -, -, hstep⟩ | ⟨i, rest, -, hd, -, hstep⟩ <;>
    rw [hstep] at h <;> cases h
  · exact hs
  · exact hs
  · rw [effect_config, effect_program, effect_pc]
    exact .next s.pc i rest hs hd

/-- Settles O41: the power-on arrays are empty, its parameters are admissible, and pc is the entry. -/
theorem powerOnMeetsTheInvariants : Obligations.PowerOnMeetsTheInvariants :=
  ⟨by decide, by decide, .entry⟩

/-! ### Host accesses to the cells -/

/-- No step brings a negative integer into a cell. -/
theorem step_keeps_nonneg {s t : State} (hs : s.nonneg = true) (h : step s = .next t) : t.nonneg = true := by
  rcases step_cases s with ⟨f, -, hstep⟩ | ⟨-, -, hstep⟩ | ⟨f, -, -, hstep⟩ | ⟨i, rest, -, -, -, hstep⟩ <;>
    rw [hstep] at h <;> cases h
  · exact hs
  · exact hs
  · obtain ⟨hregs, hmem⟩ := nonneg_iff.1 hs
    exact nonneg_iff.2 (effect_keeps_all (written_admitted rfl (by simp) (by simp) hregs hmem) hregs hmem)

/-- Settles O39: the guards let every existing cell and every integer that fits through, and the array laws do the rest. -/
theorem hostReachesEveryCell : Obligations.HostReachesEveryCell := by
  have hin : ∀ {size i : Nat}, i < size → inArray size i = true := fun h => inArray_iff.2 (by omega)
  refine ⟨fun s i v hs hi hv => ?_, fun s a v hs ha hv => ?_, fun s v h => by simp [fits, h],
    fun s t hs h => step_keeps_nonneg hs h⟩
  · obtain ⟨-, hregs, -⟩ := wf_parts hs
    simp only [hostApply, hin hi, hv, Bool.and_self, if_true, Int.toNat_natCast, writeReg_readMem]
    exact ⟨trivial, trivial, readReg_writeReg_same hregs, fun r hr => readReg_writeReg_other s hr, fun _ => trivial⟩
  · obtain ⟨-, -, hmem, -⟩ := wf_parts hs
    simp only [hostApply, hin ha, hv, Bool.and_self, if_true, Int.toNat_natCast, writeMem_readReg]
    exact ⟨trivial, trivial, readMem_writeMem_same hmem, fun q hq => readMem_writeMem_other s hq, fun _ => trivial⟩

/-- Settles O40: the guard refuses an index outside its array before it looks at the value. -/
theorem hostAccessOutsideIsRefused : Obligations.HostAccessOutsideIsRefused := by
  have hout : ∀ {size : Nat} {i : Int}, (i < 0 ∨ (size : Int) ≤ i) → inArray size i = false := fun h => by
    rw [← Bool.not_eq_true, inArray_iff]
    omega
  intro s i v
  exact ⟨fun h => by simp [hostApply, hout h], fun h => by simp [hostApply, hout h]⟩

/-! ### The cell width -/

/-- The core with another cell width. -/
def State.withCellBits (s : State) (n : Option Nat) : State := { s with config := { s.config with cellBits := n } }

theorem fetch_withCellBits (s : State) (n : Option Nat) : fetch (s.withCellBits n) = fetch s := rfl

theorem checksOf_withCellBits (i : Instr) (s : State) (n : Option Nat) :
    checksOf i (s.withCellBits n) = checksOf i s := by
  cases i <;> rfl

theorem effect_withCellBits (i : Instr) (s : State) (n : Option Nat) :
    effect i (s.withCellBits n) = (effect i s).withCellBits n := by
  cases i <;> rfl

/-- An instruction does not look at the cell width: the same check fails, or it has the same effect. -/
theorem exec_withCellBits {i : Instr} {s t : State} (n : Option Nat) (h : exec i s = .next t) :
    exec i (s.withCellBits n) = .next (t.withCellBits n) := by
  have hchecks := congrArg firstFault (checksOf_withCellBits i s n)
  rcases exec_next_cases h with ⟨f, hf, rfl⟩ | ⟨hf, rfl⟩
  · exact exec_of_fault (hchecks.trans hf)
  · rw [exec_of_pass (hchecks.trans hf), effect_withCellBits]

/-- Settles O45: neither the fetch nor the instruction it finds looks at the cell width. -/
theorem cellWidthIsNotObservable : Obligations.CellWidthIsNotObservable := by
  intro s t n h
  change step (s.withCellBits n) = .next (t.withCellBits n)
  rw [step, fetch_withCellBits]
  rw [step] at h
  cases hf : fetch s with
  | latched f => simp [hf] at h
  | halted =>
    simp only [hf] at h
    cases h
    rfl
  | raises f =>
    simp only [hf] at h
    cases h
    rfl
  | instr i =>
    simp only [hf] at h
    exact exec_withCellBits n h

end Sys2Proof.Machine
